-- ==== Sys2Proof/Word.lean ====
section
/-! DEFINITION. The word types of the block: bytes, the 19-bit command word, line levels, lines and directions. -/

namespace Sys2Proof

/-- The unit of transmission, 8 bits (00_scope.md R7 `BITS_PER_BYTE`). -/
abbrev Byte := BitVec 8

/-- The command word `{op[2:0], a[7:0], b[7:0]}` (30_encoding.md R71). -/
abbrev CommandWord := BitVec 19

/-- The level of a line: `true` is 1, high; `false` is 0, low (00_scope.md R10). -/
abbrev Level := Bool

/-- The two bus lines (00_scope.md R7 `N_LINES`, R12). -/
inductive Line
  | scl
  | sda
  deriving DecidableEq, Repr

/-- The direction of a line: `input` (0, the block does not drive it) or `output` (1) (00_scope.md R10). -/
inductive Direction
  | input
  | output
  deriving DecidableEq, Repr

end Sys2Proof
end

