-- ==== Sys2Proof/Config.lean ====
section
/-! DEFINITION. The parameters the document leaves open (00_scope.md R8) and the free values of the model. -/

namespace Sys2Proof

/-- How a pad produces a high level (00_scope.md R8 `PIN_STYLE`, 92_eei_decisions.md D6). -/
inductive PinStyle
  | openDrain
  | pushPull
  deriving DecidableEq, Repr

/-- The parameter set of 00_scope.md R8 that concerns the block, its pads and its slave. A model takes each as an
argument; `WellFormed.lean` says which sets are admitted (R9). -/
structure Config where
  /-- `DIGIT_COUNT`: number of digit positions. -/
  digitCount : Nat
  /-- `CMD_DATA_FIXED`: the "fixed address write" mode command. -/
  cmdDataFixed : Byte
  /-- `CMD_DATA_AUTO`: the "auto-increment write mode" command. -/
  cmdDataAuto : Byte
  /-- `CMD_ADDR`: the address-select command, ORed with the position. -/
  cmdAddr : Byte
  /-- `CMD_DISPLAY_ON`: the display-control command, ORed with the brightness level. -/
  cmdDisplayOn : Byte
  /-- `TIME_UNIT`: the duration of one `T_SETTLE`. The document leaves it any duration; a whole number of microseconds,
  0 admitted, is a DESIGN CHOICE (notes/assumptions/23.md). -/
  timeUnit : Nat
  /-- `SETTLE_CYCLES`: clock cycles of a realisation that make one `T_SETTLE`. -/
  settleCycles : Nat
  /-- `PIN_STYLE`. -/
  pinStyle : PinStyle
  deriving DecidableEq, Repr

/-- PRESUMED (notes/assumptions/2.md): the usual values of 00_scope.md R8, general knowledge of the TM1637 part. No
statement rests on them. -/
def Config.usual : Config where
  digitCount := 4
  cmdDataFixed := 0x44
  cmdDataAuto := 0x40
  cmdAddr := 0xC0
  cmdDisplayOn := 0x88
  timeUnit := 1
  settleCycles := 1
  pinStyle := .openDrain

/-- The host-level parameters of 00_scope.md R8 and 43_host_sequences.md R150. They are the Display Buffer Encoder's,
so they are no part of the block's state. -/
structure HostConfig where
  /-- `DEFAULT_BRIGHTNESS`. -/
  defaultBrightness : BitVec 3
  /-- `SEG_DP`: the decimal-point bit of a segment byte. -/
  segDp : Byte
  /-- `VALUE_BITS`: width of the host's number argument. -/
  valueBits : Nat
  /-- `GLYPH[0..15]` (`GLYPH_ENTRIES` = 16, 00_scope.md R7). -/
  glyph : Vector Byte 16
  /-- `CHARMAP(c)`: zero for an unmapped character. -/
  charMap : Byte → Byte

/-- A whole parameter set of 00_scope.md R8: the block's part and the host's. -/
structure ParameterSet where
  block : Config
  host : HostConfig

/-- The unspecified value of the latches `{OP, A, B}` while `BUSY = 0` (10_state.md R25, U7): the `n`-th such value is
free (notes/assumptions/4.md). -/
opaque Config.freeLatch : Nat → CommandWord

/-- The level of a wire, at sample `n`, while a push-pull pad drives it high and the environment pulls it low: free
(10_state.md R28, 90_conflicts.md C4, notes/assumptions/12.md). -/
opaque Config.contendedWire : Line → Nat → Level

/-- The character found at index `i` beyond the terminator of a string: free (93_implementation_defined.md U8,
notes/assumptions/17.md). -/
opaque Config.beyondTerminator : Nat → Byte

end Sys2Proof
end

