-- ==== Sys2Proof/Syntax.lean ====
section
/-! DEFINITION. The operations of the block, one constructor per row of spec/opcode_table.json. -/

namespace Sys2Proof

/-- The six operations of 00_scope.md R5 and the two reserved opcodes of 30_encoding.md R74. An operand field that an
operation ignores (30_encoding.md R73) is no argument of its constructor. -/
inductive Instr
  /-- `SETUP`, Port setup (40_line_primitives.md R101). -/
  | setup
  /-- `START`, the bus "attention" condition (R102). -/
  | start
  /-- `STOP`, the bus "release" condition (R103). -/
  | stop
  /-- `SENDB a`, Send byte (41_byte_transfer.md R121). -/
  | sendb (a : Byte)
  /-- `CMD a`, Send command (42_transactions.md R131). -/
  | cmd (a : Byte)
  /-- `WRAT a, b`, Send data at fixed address (R132): position `a`, data byte `b`. -/
  | wrat (a b : Byte)
  /-- Reserved opcode 6 (30_encoding.md R74). -/
  | reserved6
  /-- Reserved opcode 7 (30_encoding.md R74). -/
  | reserved7
  deriving DecidableEq, Repr

end Sys2Proof
end

