-- ==== Sys2Proof/WellFormed.lean ====
section
/-! DEFINITION. Well-formedness: the parameter sets a model admits (00_scope.md R9) and the operands a host may give
(70_reset_and_hazards.md R219, 30_encoding.md R74). -/

namespace Sys2Proof

/-- `DIGIT_COUNT ≥ 1` (R9). -/
def Config.hasDigits (c : Config) : Bool := decide (1 ≤ c.digitCount)

/-- For every position `p < DIGIT_COUNT`: `p < 256` and `CMD_ADDR & p = 0` (R9). -/
def Config.addressLeavesPositionsClear (c : Config) : Bool :=
  (List.range c.digitCount).all fun p => decide (p < 256) && (c.cmdAddr &&& BitVec.ofNat 8 p == 0)

/-- `CMD_DISPLAY_ON & 0x07 = 0` (R9). -/
def Config.displayLeavesLevelClear (c : Config) : Bool := c.cmdDisplayOn &&& 0x07 == 0

/-- `SETTLE_CYCLES ≥ 1` (R8). -/
def Config.settles (c : Config) : Bool := decide (1 ≤ c.settleCycles)

/-- The parameter sets a model admits (00_scope.md R8, R9). -/
def Config.wf (c : Config) : Bool :=
  c.hasDigits && c.addressLeavesPositionsClear && c.displayLeavesLevelClear && c.settles

/-- `SEG_DP` has exactly one bit set (00_scope.md R9). -/
def HostConfig.wf (h : HostConfig) : Bool :=
  (List.range 8).any fun i => h.segDp == BitVec.ofNat 8 (2 ^ i)

/-- A parameter set that passes every check of 00_scope.md R9. -/
def ParameterSet.wf (p : ParameterSet) : Bool := p.block.wf && p.host.wf

/-- The position of a `WRAT` is a legal address, `a < DIGIT_COUNT` (42_transactions.md R138). -/
def Instr.positionInRange (c : Config) : Instr → Bool
  | .wrat a _ => decide (a.toNat < c.digitCount)
  | .setup | .start | .stop | .sendb _ | .cmd _ | .reserved6 | .reserved7 => true

/-- The opcode is none of the reserved 6 and 7, which a host must not issue (30_encoding.md R74). -/
def Instr.defined : Instr → Bool
  | .reserved6 | .reserved7 => false
  | .setup | .start | .stop | .sendb _ | .cmd _ | .wrat _ _ => true

/-- An operation a host may issue as far as its opcode and operands go; the order of operations is
Machine/Contract.lean's. The block itself checks none of this (42_transactions.md R133) and runs every operation. -/
def Instr.wf (c : Config) (i : Instr) : Bool := i.positionInRange c && i.defined

end Sys2Proof
end

