-- ==== Sys2Proof/Decode.lean ====
section
/-! DEFINITION. The command word: fields, decoder, encoder, opcode table and assembler (30_encoding.md R70 to R75, R84). -/

namespace Sys2Proof

/-- `CW[18:16]` (30_encoding.md R71). -/
def opField (w : CommandWord) : BitVec 3 := w.extractLsb' 16 3

/-- `CW[15:8]` (R71). -/
def aField (w : CommandWord) : Byte := w.extractLsb' 8 8

/-- `CW[7:0]` (R71). -/
def bField (w : CommandWord) : Byte := w.extractLsb' 0 8

/-- Opcode values (R72). Decoding is a function of the word alone (R75); unused operand fields are ignored (R73). -/
def decode (w : CommandWord) : Instr :=
  match (opField w).toNat with
  | 0 => .setup
  | 1 => .start
  | 2 => .stop
  | 3 => .sendb (aField w)
  | 4 => .cmd (aField w)
  | 5 => .wrat (aField w) (bField w)
  | 6 => .reserved6
  | _ => .reserved7

/-- Why a number presented as a command word is rejected. -/
inductive DecodeReject
  /-- It has a bit above bit 18, for which the command port has no wire (10_state.md R35). -/
  | widerThanThePort
  deriving DecidableEq, Repr

/-- The answer of the decoder on any number. -/
inductive Decoded
  | instr (i : Instr)
  | rejected (r : DecodeReject)
  deriving DecidableEq, Repr

/-- The 19 wires of `op_word` as a number: a number that needs more wires is no command word
(notes/assumptions/19.md). -/
def commandWord? (w : Nat) : Option CommandWord :=
  if w < 2 ^ 19 then some (BitVec.ofNat 19 w) else none

/-- Decoding, total on any number. -/
def decodeNat (w : Nat) : Decoded :=
  match commandWord? w with
  | some cw => .instr (decode cw)
  | none => .rejected .widerThanThePort

/-- The instruction the decoder reads from a word numbered as spec/opcode_table.json numbers it. -/
def decodeTableWord (_nbits w : Nat) : Option Instr :=
  match decodeNat w with
  | .instr i => some i
  | .rejected _ => none

/-- The opcode of an operation (R72, R74). -/
def Instr.opcode : Instr → BitVec 3
  | .setup => 0
  | .start => 1
  | .stop => 2
  | .sendb _ => 3
  | .cmd _ => 4
  | .wrat _ _ => 5
  | .reserved6 => 6
  | .reserved7 => 7

/-- The field `a` an assembler writes: zero where unused (R73). -/
def Instr.aOperand : Instr → Byte
  | .sendb a => a
  | .cmd a => a
  | .wrat a _ => a
  | .setup | .start | .stop | .reserved6 | .reserved7 => 0

/-- The field `b` an assembler writes: zero where unused (R73). -/
def Instr.bOperand : Instr → Byte
  | .wrat _ b => b
  | .setup | .start | .stop | .sendb _ | .cmd _ | .reserved6 | .reserved7 => 0

/-- The command word `{op, a, b}` of an operation (R71, R84). -/
def encode (i : Instr) : CommandWord := i.opcode ++ i.aOperand ++ i.bOperand

/-- The mnemonics of R72, and the table's names of the reserved rows. -/
def Instr.mnemonic : Instr → String
  | .setup => "SETUP"
  | .start => "START"
  | .stop => "STOP"
  | .sendb _ => "SENDB"
  | .cmd _ => "CMD"
  | .wrat _ _ => "WRAT"
  | .reserved6 => "RESERVED6"
  | .reserved7 => "RESERVED7"

/-- One row of spec/opcode_table.json: a word belongs to it when `w & mask = pattern`. -/
structure OpcodeRow where
  mnemonic : String
  mask : CommandWord
  pattern : CommandWord
  deriving DecidableEq, Repr

/-- The opcode table: mask `0x70000`, match `op << 16` (R72). -/
def opcodeTable : List OpcodeRow :=
  [⟨"SETUP", 0x70000, 0x00000⟩, ⟨"START", 0x70000, 0x10000⟩, ⟨"STOP", 0x70000, 0x20000⟩,
   ⟨"SENDB", 0x70000, 0x30000⟩, ⟨"CMD", 0x70000, 0x40000⟩, ⟨"WRAT", 0x70000, 0x50000⟩,
   ⟨"RESERVED6", 0x70000, 0x60000⟩, ⟨"RESERVED7", 0x70000, 0x70000⟩]

/-- The row whose pattern a word matches. -/
def OpcodeRow.selects (r : OpcodeRow) (w : CommandWord) : Bool := w &&& r.mask == r.pattern

/-- One line of assembly (R84), already split into its mnemonic and the values of its operands: the operation it
names, if the mnemonic exists and has that many operands. The reserved opcodes have no line. -/
def assemble (mnemonic : String) (operands : List Byte) : Option Instr :=
  match operands with
  | [] =>
    if mnemonic = "SETUP" then some .setup
    else if mnemonic = "START" then some .start
    else if mnemonic = "STOP" then some .stop
    else none
  | [a] =>
    if mnemonic = "SENDB" then some (.sendb a)
    else if mnemonic = "CMD" then some (.cmd a)
    else none
  | [a, b] => if mnemonic = "WRAT" then some (.wrat a b) else none
  | _ :: _ :: _ :: _ => none

end Sys2Proof
end

