-- ==== Sys2Proof/Machine/State.lean ====
section
/-! DEFINITION. The state of the block (10_state.md R20, R29), its micro-operations and events (00_scope.md R11), the
host's pending moves, and the state after reset (R37). -/

namespace Sys2Proof.Machine

/-- The seven micro-operations of 00_scope.md R11. -/
inductive MicroOp
  /-- `DIRC`: `SCL_DIR <- out`. -/
  | dirc
  /-- `DIRD`: `SDA_DIR <- out`. -/
  | dird
  /-- `C0`: `SCL <- 0`. -/
  | c0
  /-- `C1`: `SCL <- 1`. -/
  | c1
  /-- `D0`: `SDA <- 0`. -/
  | d0
  /-- `D1`: `SDA <- 1`. -/
  | d1
  /-- `T`: a settle delay of at least `T_SETTLE`. -/
  | t
  deriving DecidableEq, Repr

/-- The events of the trace (00_scope.md R11, 10_state.md R29). -/
inductive Event
  /-- `Dir(line, dir)`. -/
  | dir (line : Line) (d : Direction)
  /-- `Drive(line, level)`. -/
  | drive (line : Line) (v : Level)
  /-- `Settle`. -/
  | settle
  deriving DecidableEq, Repr

/-- The four line elements of the state (10_state.md R21 to R23, 60_exceptions.md R200). -/
structure Lines where
  scl : Level
  sda : Level
  sclDir : Direction
  sdaDir : Direction
  deriving DecidableEq, Repr

/-- Both lines released with high latches (10_state.md R37). -/
def Lines.reset : Lines := ⟨true, true, .input, .input⟩

/-- What the host does next (60_exceptions.md R201): present a command word on the port, or assert reset. -/
inductive HostMove
  /-- `op_valid = 1` with this `op_word`, held until it is accepted (70_reset_and_hazards.md R215). -/
  | present (w : CommandWord)
  /-- `rst = 1`. -/
  | reset
  deriving DecidableEq, Repr

/-- The state. The first nine fields are the elements of 10_state.md R20, then the trace of R29; the last three are the
model's own (INVENTORY.md, State). -/
structure State where
  /-- `SCL` (R21). -/
  scl : Level
  /-- `SDA` (R22). -/
  sda : Level
  /-- `SCL_DIR` (R23). -/
  sclDir : Direction
  /-- `SDA_DIR` (R23). -/
  sdaDir : Direction
  /-- `BUSY` (R24). -/
  busy : Bool
  /-- `OP` (R25). -/
  op : BitVec 3
  /-- `A` (R25, R26). -/
  a : Byte
  /-- `B` (R25, R26). -/
  b : Byte
  /-- `PHASE` (R27). -/
  phase : BitVec 8
  /-- `TRACE`, oldest event first (R29). -/
  trace : List Event
  /-- The host's next moves, first move first: the signals `op_valid`, `op_word`, `rst` of R35. -/
  host : List HostMove
  /-- The parameter set (00_scope.md R8). No step writes it. -/
  cfg : Config
  /-- How many free values have been drawn for `OP`, `A`, `B` (notes/assumptions/4.md). -/
  freeIdx : Nat
  deriving DecidableEq, Repr

/-- Why the block stops: it never does. "The block raises no synchronous exception" (60_exceptions.md R190), "it cannot
hang" (40_line_primitives.md R100), so the type has no constructor. -/
inductive Fault
  deriving DecidableEq, Repr

/-- Why the model gives an instruction no meaning. -/
inductive Refusal
  /-- Raised by an arm of `exec` whose instruction has no meaning yet (safe); no arm raises it now. -/
  | notModelled (mnemonic : String)
  deriving DecidableEq, Repr

/-- The machine right after reset with the parameter set `c` (10_state.md R37, 70_reset_and_hazards.md R210). `OP`, `A`,
`B` are unspecified there; the zeros are a DESIGN CHOICE (notes/assumptions/3.md). -/
def State.resetWith (c : Config) : State where
  scl := true
  sda := true
  sclDir := .input
  sdaDir := .input
  busy := false
  op := 0
  a := 0
  b := 0
  phase := 0
  trace := []
  host := []
  cfg := c
  freeIdx := 0

/-- The machine right after reset, with the usual parameter values (PRESUMED, notes/assumptions/2.md). -/
def State.reset : State := State.resetWith Config.usual

/-- The four line elements of a state. -/
def State.lines (s : State) : Lines := ⟨s.scl, s.sda, s.sclDir, s.sdaDir⟩

end Sys2Proof.Machine
end

