-- ==== Sys2Proof/Machine/Flags.lean ====
section
/-! DEFINITION. The one flag, `BUSY` (10_state.md R24, R40): no operation has a flag effect other than setting and
clearing it. -/

namespace Sys2Proof.Machine

/-- Acceptance sets `BUSY` (10_state.md R31). -/
def State.raiseBusy (s : State) : State := { s with busy := true }

/-- Completion clears `BUSY` (R33). -/
def State.clearBusy (s : State) : State := { s with busy := false }

/-- The output `busy` of the command port is the value of `BUSY` (R35). -/
def State.busyOut (s : State) : Bool := s.busy

/-- `op_valid = 1` is honoured exactly when `BUSY = 0` (R31, R35). -/
def State.accepts (s : State) : Bool := !s.busy

end Sys2Proof.Machine
end

