-- ==== Sys2Proof/Machine/Operands.lean ====
section
/-! DEFINITION. Operand forms: the whole arithmetic of the block (30_encoding.md R86) and the assembled bytes (R81, R82). -/

namespace Sys2Proof.Machine

/-- Bit `i` of an operand byte, bit 0 the least significant (00_scope.md R10). -/
def operandBit (x : Byte) (i : Nat) : Level := x.getLsbD i

/-- `addr = (CMD_ADDR | a)[7:0]`: an 8-bit OR, no shift, no mask, no range check (30_encoding.md R81,
42_transactions.md R133). -/
def addressByte (c : Config) (a : Byte) : Byte := c.cmdAddr ||| a

/-- `BRIGHT_MASK` (00_scope.md R7). -/
def brightMask : Byte := 0x07

/-- `CMD_DISPLAY_ON | (level & 0x07)`, assembled by the host (30_encoding.md R82). -/
def displayControlByte (c : Config) (level : Byte) : Byte := c.cmdDisplayOn ||| (level &&& brightMask)

/-- `BLANK` (00_scope.md R7). -/
def blankByte : Byte := 0x00

end Sys2Proof.Machine
end

