-- ==== Sys2Proof/Machine/MicroLists.lean ====
section
/-! DEFINITION. The micro-operation list of every operation, `seq(op, a, b)` (30_encoding.md R76 to R78). -/

namespace Sys2Proof.Machine

/-- `Dv`: `D0` when `v = 0` and `D1` when `v = 1` (00_scope.md R11). -/
def dataWrite (v : Level) : MicroOp := if v then .d1 else .d0

/-- `cell(v) = C0 Dv T C1 T` (30_encoding.md R76, 41_byte_transfer.md R120). -/
def cell (v : Level) : List MicroOp := [.c0, dataWrite v, .t, .c1, .t]

/-- `byte(x)`: eight cells, least-significant bit first, then the acknowledge slot `cell(0)` (30_encoding.md R77,
41_byte_transfer.md R121, R122). -/
def byteList (x : Byte) : List MicroOp :=
  cell (operandBit x 0) ++ cell (operandBit x 1) ++ cell (operandBit x 2) ++ cell (operandBit x 3) ++
  cell (operandBit x 4) ++ cell (operandBit x 5) ++ cell (operandBit x 6) ++ cell (operandBit x 7) ++
  cell false

/-- `seq(SETUP)` (40_line_primitives.md R101). -/
def setupList : List MicroOp := [.dirc, .dird, .c1, .d1]

/-- `seq(START)` (R102). -/
def startList : List MicroOp := [.c1, .t, .d1, .t, .d0, .t]

/-- `seq(STOP)` (R103). -/
def stopList : List MicroOp := [.c0, .t, .d0, .t, .c1, .t, .d1, .t]

/-- `seq(SENDB, a)` (41_byte_transfer.md R121). -/
def sendbList (a : Byte) : List MicroOp := byteList a

/-- `seq(CMD, a)`: plain concatenation (42_transactions.md R130, R131). -/
def cmdList (a : Byte) : List MicroOp := startList ++ sendbList a ++ stopList

/-- `seq(WRAT, a, b)`: the mode-select frame, the address and data frame, one extra settle delay
(42_transactions.md R132). -/
def wratList (c : Config) (a b : Byte) : List MicroOp :=
  cmdList c.cmdDataFixed ++ startList ++ sendbList (addressByte c a) ++ sendbList b ++ stopList ++ [.t]

/-- The list of a reserved opcode (30_encoding.md R74). -/
def reservedList : List MicroOp := []

/-- `seq(op, a, b)` (30_encoding.md R78), as the sequencer reads it from its latches. -/
def seq (c : Config) (op : BitVec 3) (a b : Byte) : List MicroOp :=
  match op.toNat with
  | 0 => setupList
  | 1 => startList
  | 2 => stopList
  | 3 => sendbList a
  | 4 => cmdList a
  | 5 => wratList c a b
  | _ => reservedList

/-- The list of an operation, from its definition as an instruction. -/
def microOps (c : Config) : Instr → List MicroOp
  | .setup => setupList
  | .start => startList
  | .stop => stopList
  | .sendb a => sendbList a
  | .cmd a => cmdList a
  | .wrat a b => wratList c a b
  | .reserved6 => reservedList
  | .reserved7 => reservedList

/-- The acknowledge slot of `byte(x)`: `false` for each element of the eight data cells, `true` for each of the ninth
(41_byte_transfer.md R122). -/
def byteMarks : List Bool := List.replicate 40 false ++ List.replicate 5 true

/-- A list outside every acknowledge slot. -/
def unmarked (ms : List MicroOp) : List Bool := ms.map fun _ => false

/-- For each element of an operation's list, whether it belongs to an acknowledge slot (R122). -/
def slotMarks : Instr → List Bool
  | .setup => unmarked setupList
  | .start => unmarked startList
  | .stop => unmarked stopList
  | .sendb _ => byteMarks
  | .cmd _ => unmarked startList ++ byteMarks ++ unmarked stopList
  | .wrat _ _ =>
    unmarked startList ++ byteMarks ++ unmarked stopList ++
      unmarked startList ++ byteMarks ++ byteMarks ++ unmarked stopList ++ unmarked [.t]
  | .reserved6 => unmarked reservedList
  | .reserved7 => unmarked reservedList

/-- `ACK_POINT` (41_byte_transfer.md R123): from the `C1` of the slot to the settle delay after it, as indices of
`seq(SENDB)`. A name only; no behaviour is attached to it. -/
def ackPoint : List Nat := [43, 44]

end Sys2Proof.Machine
end

