-- ==== Sys2Proof/Machine/Ops.lean ====
section
/-! DEFINITION. The named operations over the state: one micro-operation, accept, execute, complete, reset, and one
whole operation of the block (00_scope.md R11, 10_state.md R31 to R34, R37). There is no exception to take and none to
return from (60_exceptions.md R190, R196, R197). -/

namespace Sys2Proof.Machine

/-- The event a micro-operation appends (00_scope.md R11): the write, not the change. -/
def MicroOp.event : MicroOp → Event
  | .dirc => .dir .scl .output
  | .dird => .dir .sda .output
  | .c0 => .drive .scl false
  | .c1 => .drive .scl true
  | .d0 => .drive .sda false
  | .d1 => .drive .sda true
  | .t => .settle

/-- The effect of a micro-operation on the four line elements (00_scope.md R11). -/
def MicroOp.onLines (m : MicroOp) (l : Lines) : Lines :=
  match m with
  | .dirc => { l with sclDir := .output }
  | .dird => { l with sdaDir := .output }
  | .c0 => { l with scl := false }
  | .c1 => { l with scl := true }
  | .d0 => { l with sda := false }
  | .d1 => { l with sda := true }
  | .t => l

/-- The lines after a list of micro-operations, in order. -/
def linesAfter (ms : List MicroOp) (l : Lines) : Lines := ms.foldl (fun l m => m.onLines l) l

/-- Writes the four line elements. -/
def State.withLines (s : State) (l : Lines) : State :=
  { s with scl := l.scl, sda := l.sda, sclDir := l.sclDir, sdaDir := l.sdaDir }

/-- `perform m`: the state write and the event of 00_scope.md R11. -/
def perform (m : MicroOp) (s : State) : State :=
  { s.withLines (m.onLines s.lines) with trace := s.trace ++ [m.event] }

/-- One execute step with the micro-operation `m` (10_state.md R32): perform it and add 1 to `PHASE`. -/
def execMicro (m : MicroOp) (s : State) : State :=
  { perform m s with phase := s.phase + 1 }

/-- The execute steps of a list, in order. -/
def runMicros (ms : List MicroOp) (s : State) : State := ms.foldl (fun s m => execMicro m s) s

/-- Accept (10_state.md R31): `OP <- op ; A <- a ; B <- b ; PHASE <- 0 ; BUSY <- 1`. A reserved opcode is accepted too
(30_encoding.md R74, notes/assumptions/5.md). -/
def accept (op : BitVec 3) (a b : Byte) (s : State) : State :=
  { s.raiseBusy with op := op, a := a, b := b, phase := 0 }

/-- While `BUSY = 0` the latches are unspecified (10_state.md R25, U7): they take the next free value
(notes/assumptions/4.md). -/
def State.freeLatches (s : State) : State :=
  { s with
    op := opField (Config.freeLatch s.freeIdx)
    a := aField (Config.freeLatch s.freeIdx)
    b := bField (Config.freeLatch s.freeIdx)
    freeIdx := s.freeIdx + 1 }

/-- Complete (10_state.md R33): `BUSY <- 0`, nothing appended to the trace. -/
def complete (s : State) : State := s.clearBusy.freeLatches

/-- Reset of the block, at any time (10_state.md R37): lines released with high latches, `BUSY` and `PHASE` 0, the trace
empty, `OP`, `A`, `B` unspecified. An operation in flight is abandoned where it is, with no clean-up STOP
(92_eei_decisions.md D26). -/
def resetBlock (s : State) : State :=
  ({ s.withLines Lines.reset with busy := false, phase := 0, trace := [] } : State).freeLatches

/-- One whole operation (10_state.md R34): accepted, its list `ms` executed in order, completed. A command word
presented while `BUSY = 1` is not accepted and has no effect (R31). -/
def operate (op : BitVec 3) (a b : Byte) (ms : List MicroOp) (s : State) : Host.Outcome State Fault Refusal :=
  if s.accepts then .next (complete (runMicros ms (accept op a b s))) else .next s

end Sys2Proof.Machine
end

