-- ==== Sys2Proof/Machine/ByteTransfer.lean ====
section
/-! DEFINITION. The byte transfer `SENDB` (41_byte_transfer.md). -/

namespace Sys2Proof.Machine

/-- `SENDB a` (R121): eight bit cells, least-significant bit first, then the acknowledge slot, in which nothing is
sampled (R123). -/
def execSendb (a : Byte) (s : State) : Host.Outcome State Fault Refusal := operate 3 a 0 (sendbList a) s

end Sys2Proof.Machine
end

