-- ==== Sys2Proof/Machine/LinePrimitives.lean ====
section
/-! DEFINITION. The line primitives `SETUP`, `START`, `STOP` (40_line_primitives.md). -/

namespace Sys2Proof.Machine

/-- `SETUP` (R101): directions to `out`, then both levels high; no settle delay. -/
def execSetup (s : State) : Host.Outcome State Fault Refusal := operate 0 0 0 setupList s

/-- `START` (R102): clock high, data high, data low, each followed by a settle delay. -/
def execStart (s : State) : Host.Outcome State Fault Refusal := operate 1 0 0 startList s

/-- `STOP` (R103): clock low, data low, clock high, data high, each followed by a settle delay. -/
def execStop (s : State) : Host.Outcome State Fault Refusal := operate 2 0 0 stopList s

end Sys2Proof.Machine
end

