-- ==== Sys2Proof/Machine/Reserved.lean ====
section
/-! DEFINITION. The reserved opcodes 6 and 7: "an operation with the empty micro-operation list: `BUSY` may rise and
fall, no line is written, no event is appended" (30_encoding.md R74, notes/assumptions/5.md). -/

namespace Sys2Proof.Machine

/-- Opcode 6 (R74). -/
def execReserved6 (s : State) : Host.Outcome State Fault Refusal := operate 6 0 0 reservedList s

/-- Opcode 7 (R74). -/
def execReserved7 (s : State) : Host.Outcome State Fault Refusal := operate 7 0 0 reservedList s

end Sys2Proof.Machine
end

