-- ==== Sys2Proof/Machine/Transactions.lean ====
section
/-! DEFINITION. The transactions `CMD` and `WRAT` (42_transactions.md). -/

namespace Sys2Proof.Machine

/-- `CMD a` (R131): one byte in a frame of its own; the block does not interpret `a`. -/
def execCmd (a : Byte) (s : State) : Host.Outcome State Fault Refusal := operate 4 a 0 (cmdList a) s

/-- `WRAT a, b` (R132): the block's only store (R137), executed whatever the position is (R138). -/
def execWrat (a b : Byte) (s : State) : Host.Outcome State Fault Refusal := operate 5 a b (wratList s.cfg a b) s

end Sys2Proof.Machine
end

