-- ==== Sys2Proof/Machine/Dispatch.lean ====
section
/-! DEFINITION. One arm per operation. -/

namespace Sys2Proof.Machine

def exec (i : Instr) (s : State) : Host.Outcome State Fault Refusal :=
  match i with
  | .setup => Sys2Proof.Machine.execSetup s
  | .start => Sys2Proof.Machine.execStart s
  | .stop => Sys2Proof.Machine.execStop s
  | .sendb a => Sys2Proof.Machine.execSendb a s
  | .cmd a => Sys2Proof.Machine.execCmd a s
  | .wrat a b => Sys2Proof.Machine.execWrat a b s
  | .reserved6 => Sys2Proof.Machine.execReserved6 s
  | .reserved7 => Sys2Proof.Machine.execReserved7 s

end Sys2Proof.Machine
end

