-- ==== Sys2Proof/Machine/Sequencer.lean ====
section
/-! DEFINITION. The small-step form of the block: one step per tick, with the input signals of its ports as an argument
(10_state.md R31 to R33, R35 to R37), and the rest of an operation in flight. -/

namespace Sys2Proof.Machine

/-- The input signals of the command port (10_state.md R35) and of the pin port (R36) in one tick. -/
structure PortInput where
  opValid : Bool
  opWord : CommandWord
  rst : Bool
  /-- The wire levels; "read by no rule" (R36). -/
  sclIn : Level
  sdaIn : Level
  deriving DecidableEq, Repr

/-- The list of the operation in flight, from the latches (10_state.md R32). -/
def State.inFlight (s : State) : List MicroOp := seq s.cfg s.op s.a s.b

/-- Accept a command word (10_state.md R31): the three fields are latched whole, the unused ones too. -/
def acceptWord (w : CommandWord) (s : State) : State := accept (opField w) (aField w) (bField w) s

/-- One small step. Reset wins over everything (60_exceptions.md R195); then execute (R32) or complete (R33) while busy,
accept (R31) while idle. No rule covers `PHASE > len`, which no run reaches: the state stays
(notes/assumptions/10.md). -/
def tick (p : PortInput) (s : State) : State :=
  if p.rst then resetBlock s
  else if s.busy then
    match s.inFlight[s.phase.toNat]? with
    | some m => execMicro m s
    | none => if s.phase.toNat = s.inFlight.length then complete s else s
  else if p.opValid then acceptWord p.opWord s
  else s

/-- `n` ticks under a stream of inputs, the first tick with input 0. -/
def ticks (input : Nat → PortInput) : Nat → State → State
  | 0, s => s
  | n + 1, s => ticks (fun k => input (k + 1)) n (tick (input 0) s)

/-- The rest of the operation in flight, executed and completed (10_state.md R32, R33). -/
def drain (s : State) : State :=
  if s.phase.toNat ≤ s.inFlight.length then complete (runMicros (s.inFlight.drop s.phase.toNat) s) else s

/-- The inputs a host gives that holds one command word presented (70_reset_and_hazards.md R215). -/
def PortInput.holding (w : CommandWord) : PortInput := ⟨true, w, false, true, true⟩

/-- The inputs of a tick in which the host presents nothing. -/
def PortInput.quiet : PortInput := ⟨false, 0, false, true, true⟩

end Sys2Proof.Machine
end

