-- ==== Sys2Proof/Machine/Step.lean ====
section
/-! DEFINITION. One step: the host's next move, up to the next point where `BUSY = 0` (10_state.md R34,
notes/assumptions/1.md and 7.md). -/

namespace Sys2Proof.Machine

/-- A pending reset wins (60_exceptions.md R195). An operation in flight is finished first and the word presented
meanwhile stays presented (10_state.md R31, 70_reset_and_hazards.md R215). An idle block accepts the word presented and
runs its operation. With nothing presented an idle block stays as it is (60_exceptions.md R201). -/
def step (s : State) : Host.Outcome State Fault Refusal :=
  match s.host with
  | .reset :: rest => .next (resetBlock { s with host := rest })
  | .present w :: rest => if s.busy then .next (drain s) else exec (decode w) { s with host := rest }
  | [] => if s.busy then .next (drain s) else .next s

/-- `s` with the command word `w` as the word the host presents now, and the block idle so that the very next step
accepts it. A number with a bit above bit 18 is no command word (notes/assumptions/19.md): nothing is presented. -/
def State.withFetchWord (s : State) (_nbits w : Nat) : State :=
  match commandWord? w with
  | some cw => { s with busy := false, host := .present cw :: s.host.tail }
  | none => { s with busy := false, host := [] }

end Sys2Proof.Machine
end

