-- ==== Sys2Proof/Machine/Encoder.lean ====
section
/-! DEFINITION. The host's sequences, the Display Buffer Encoder of 43_host_sequences.md, as expansions into operations of
the block. They are host behaviour, outside the block (00_scope.md R6); no definition of the block uses this file. -/

namespace Sys2Proof.Machine

/-- The host's state: `DOTMASK`, bit `p` for position `p` (43_host_sequences.md R150). -/
structure EncoderState where
  dotMask : Nat
  deriving DecidableEq, Repr

/-- `DOTMASK` at program start (R150, 70_reset_and_hazards.md R211). -/
def EncoderState.init : EncoderState := ⟨0⟩

/-- What a host call does, in order. -/
inductive HostAction
  /-- One operation of the block. -/
  | issue (i : Instr)
  /-- A blocking pause (R163, 70_reset_and_hazards.md R222). -/
  | wait (milliseconds : Nat)
  deriving DecidableEq, Repr

/-- `SCROLL_FRAME_MS` (00_scope.md R7). -/
def scrollFrameMs : Nat := 250

/-- `SENT = 2^OFFSET_BITS - 1` with `OFFSET_BITS = 8` (R150, 92_eei_decisions.md D24). -/
def sentinel : Byte := 255

/-- `SETRAW pos, byte` (R155): the dot overlay, then exactly one `WRAT`. -/
def setRaw (h : HostConfig) (e : EncoderState) (pos byte : Byte) : Instr :=
  .wrat pos (if e.dotMask.testBit pos.toNat then byte ||| h.segDp else byte)

/-- `GLYPH[n]` with the index taken modulo 16 (R156, 90_conflicts.md C6). -/
def glyphAt (h : HostConfig) (n : Nat) : Byte := h.glyph[n % 16]'(Nat.mod_lt n (by decide))

/-- `SETDIGIT pos, n` (R156). -/
def setDigit (h : HostConfig) (e : EncoderState) (pos : Byte) (n : Nat) : Instr :=
  setRaw h e pos (glyphAt h n)

/-- `CLEAR` (R152): the blank byte to every position, through `SETRAW`. -/
def clear (h : HostConfig) (c : Config) (e : EncoderState) : List Instr :=
  (List.range c.digitCount).map fun p => setRaw h e (BitVec.ofNat 8 p) blankByte

/-- `BRIGHT level` (R153): `CMD CMD_DISPLAY_ON | (level & 0x07)`. No width of `level` is given; a byte is a DESIGN CHOICE
(notes/assumptions/17.md). -/
def bright (c : Config) (level : Byte) : Instr := .cmd (displayControlByte c level)

/-- `INIT` (R151), the boot sequence of 70_reset_and_hazards.md R212; `DOTMASK` is 0 before its first step. -/
def initSequence (h : HostConfig) (c : Config) : List Instr :=
  .setup :: .cmd c.cmdDataAuto :: bright c (h.defaultBrightness.setWidth 8) :: clear h c .init

/-- The loop of `SETDEC` (R157). `fuel` bounds the turns: the offset reaches the sentinel within 256. A caller's offset that
is the sentinel already, or any other out of range, is "the unspecified case" (90_conflicts.md C10, U3): the model runs R157's
loop on it as written, so the sentinel writes nothing (DESIGN CHOICE, notes/assumptions/25.md), and `hostProgram?` refuses
such a call. -/
def decimalLoop (h : HostConfig) (e : EncoderState) : Nat → Nat → Byte → List Instr
  | 0, _, _ => []
  | fuel + 1, value, offset =>
    if value ≠ 0 ∧ offset ≠ sentinel then
      setDigit h e offset (value % 10) :: decimalLoop h e fuel (value / 10) (offset - 1)
    else []

/-- The alignment argument of `SETDEC`; right is the default (R157, R158). -/
inductive Align
  | right
  | left
  deriving DecidableEq, Repr

/-- "how many extra digits the number has beyond one (by repeated division)" (R158); `n` is fuel enough for `n`. -/
def extraDigits : Nat → Nat → Nat
  | 0, _ => 0
  | fuel + 1, n => if n / 10 ≠ 0 then extraDigits fuel (n / 10) + 1 else 0

/-- `SETDEC value, offset, align` (R157, R158). -/
def setDec (h : HostConfig) (e : EncoderState) (value : Nat) (offset : Byte) : Align → List Instr
  | .right => decimalLoop h e 256 value offset
  | .left => decimalLoop h e 256 value (offset + BitVec.ofNat 8 (extraDigits value value))

/-- The number base of a padded write: digit and rest of a value. -/
inductive Radix
  /-- `value mod 10`, `value div 10` (R159). -/
  | decimal
  /-- `value & 0xF`, `value >> 4` (R160). -/
  | hexadecimal
  deriving DecidableEq, Repr

def Radix.digit : Radix → Nat → Nat
  | .decimal, v => v % 10
  | .hexadecimal, v => v &&& 0xF

def Radix.rest : Radix → Nat → Nat
  | .decimal, v => v / 10
  | .hexadecimal, v => v >>> 4

/-- The fill loop of R159; a sentinel offset fills nothing (notes/assumptions/25.md). -/
def padLoop (h : HostConfig) (e : EncoderState) (pad : Byte) : Nat → Byte → Nat → List Instr
  | 0, _, _ => []
  | fuel + 1, offset, width =>
    if width ≠ 0 ∧ offset ≠ sentinel then
      setRaw h e offset pad :: padLoop h e pad fuel (offset - 1) (width - 1)
    else []

/-- The digit loop of R159 and R160, then the fill loop from where it stopped; a caller's offset out of range runs as in
`decimalLoop` (notes/assumptions/25.md). -/
def paddedLoop (h : HostConfig) (e : EncoderState) (r : Radix) (pad : Byte) :
    Nat → Nat → Byte → Nat → List Instr
  | 0, _, _, _ => []
  | fuel + 1, value, offset, width =>
    if value ≠ 0 ∧ width ≠ 0 ∧ offset ≠ sentinel then
      setDigit h e offset (r.digit value) ::
        paddedLoop h e r pad fuel (r.rest value) (offset - 1) (width - 1)
    else padLoop h e pad (fuel + 1) offset width

/-- `SETDECPAD` and `SETHEXPAD` (R159, R160). -/
def setPadded (h : HostConfig) (e : EncoderState) (r : Radix) (value : Nat) (offset : Byte) (width : Nat)
    (pad : Byte) : List Instr :=
  paddedLoop h e r pad 257 value offset width

/-- `lo <= c <= hi` on character codes. -/
def codeIn (lo hi : Nat) (c : Byte) : Bool := decide (lo ≤ c.toNat) && decide (c.toNat ≤ hi)

/-- The segment byte of a character, looked up in the priority order of R161 (character codes of ASCII, G8). -/
def charGlyph (h : HostConfig) (c : Byte) : Byte :=
  let g₁ := h.charMap c
  let g₂ := if g₁ = 0 ∧ codeIn 97 122 c then glyphAt h (c.toNat - 97 + 10) else g₁
  let g₃ := if g₂ = 0 ∧ codeIn 65 90 c then glyphAt h (c.toNat - 65 + 10) else g₂
  if g₃ = 0 ∧ codeIn 48 57 c then glyphAt h (c.toNat - 48) else g₃

/-- The space character, the one special case of R161. -/
def spaceCode : Byte := 0x20

/-- `SETCHAR pos, c` (R161): one write, or nothing for a skipped character. -/
def setChar (h : HostConfig) (e : EncoderState) (pos c : Byte) : List Instr :=
  if charGlyph h c ≠ 0 ∨ c = spaceCode then [setRaw h e pos (charGlyph h c)] else []

/-- `SETSTR offset, s` (R162): up to the terminator; the offset advances for a skipped character too. -/
def setStr (h : HostConfig) (e : EncoderState) : Byte → List Byte → List Instr
  | _, [] => []
  | offset, c :: rest => if c = 0 then [] else setChar h e offset c ++ setStr h e (offset + 1) rest

/-- The characters of a null-terminated sequence. -/
def stringChars (s : List Byte) : List Byte := s.takeWhile fun c => c != 0

/-- `s[i]` of a null-terminated sequence: its characters, the terminator, and beyond it a free value
(93_implementation_defined.md U8, notes/assumptions/17.md). -/
def charAt (s : List Byte) (i : Nat) : Byte :=
  let chars := stringChars s
  if i < chars.length then chars.getD i 0
  else if i = chars.length then 0
  else Config.beyondTerminator i

/-- One frame of `SCROLL` from position `p` on, `left` positions to fill: what it issues, and whether the call returns
there (R163). -/
def scrollFrame (h : HostConfig) (e : EncoderState) (s : List Byte) (frame : Nat) :
    Nat → Nat → List HostAction × Bool
  | 0, _ => ([], false)
  | left + 1, p =>
    if left = 0 ∧ charAt s (frame + p) = 0 then ([], true)
    else
      let later := scrollFrame h e s frame left (p + 1)
      ((setChar h e (BitVec.ofNat 8 p) (charAt s (frame + p))).map .issue ++ later.1, later.2)

/-- The frames of `SCROLL` from frame `f` on, at most `count` of them: what the host has done by then, for a string of any
length. -/
def scrollFrames (h : HostConfig) (c : Config) (e : EncoderState) (s : List Byte) : Nat → Nat → List HostAction
  | 0, _ => []
  | count + 1, f =>
    let shown := scrollFrame h e s f c.digitCount 0
    if shown.2 then shown.1
    else shown.1 ++ .wait scrollFrameMs :: scrollFrames h c e s count (f + 1)

/-- `SCROLL s` (R163), the whole call; the argument `none` is the null input. An empty or null input is a no-op. On a
string of `n` characters a display of at most `n + 1` digits meets the terminator in frame `n + 1 - DIGIT_COUNT` and
returns there. On a shorter string the last window character is never the terminator but always beyond it, so the spec
does not say whether the call returns: a model refuses it (93_implementation_defined.md U8, notes/assumptions/17.md), and
`scrollFrames` tells its frames. -/
def scroll (h : HostConfig) (c : Config) (e : EncoderState) : Option (List Byte) → Option (List HostAction)
  | none => some []
  | some s =>
    if stringChars s = [] then some []
    else if 1 ≤ c.digitCount ∧ c.digitCount ≤ (stringChars s).length + 1 then
      some (scrollFrames h c e s ((stringChars s).length + 2 - c.digitCount) 0)
    else none

/-- The calls of the Display Buffer Encoder. The source gives a width to no argument but offset and value: a brightness
level, a segment byte, a pad and a character are a byte each, and a mask, a digit and a width are natural numbers (DESIGN
CHOICE, notes/assumptions/17.md). -/
inductive EncoderCall
  | init
  | clear
  | bright (level : Byte)
  | setDots (mask : Nat)
  | setRaw (pos byte : Byte)
  | setDigit (pos : Byte) (n : Nat)
  | setDec (value : Nat) (offset : Byte) (align : Align)
  | setDecPad (value : Nat) (offset : Byte) (width : Nat) (pad : Byte)
  | setHexPad (value : Nat) (offset : Byte) (width : Nat) (pad : Byte)
  | setChar (pos c : Byte)
  | setStr (offset : Byte) (s : List Byte)
  | scroll (s : Option (List Byte))
  deriving DecidableEq, Repr

/-- The actions of a call (R151 to R163); `none` is a call that is refused, a `SCROLL` of too short a string. -/
def EncoderCall.actions (h : HostConfig) (c : Config) (e : EncoderState) : EncoderCall → Option (List HostAction)
  | .init => some ((initSequence h c).map .issue)
  | .clear => some ((Machine.clear h c e).map .issue)
  | .bright level => some [.issue (Machine.bright c level)]
  | .setDots _ => some []
  | .setRaw pos byte => some [.issue (Machine.setRaw h e pos byte)]
  | .setDigit pos n => some [.issue (Machine.setDigit h e pos n)]
  | .setDec value offset align => some ((Machine.setDec h e value offset align).map .issue)
  | .setDecPad value offset width pad => some ((setPadded h e .decimal value offset width pad).map .issue)
  | .setHexPad value offset width pad => some ((setPadded h e .hexadecimal value offset width pad).map .issue)
  | .setChar pos c => some ((Machine.setChar h e pos c).map .issue)
  | .setStr offset s => some ((Machine.setStr h e offset s).map .issue)
  | .scroll s => Machine.scroll h c e s

/-- The host state after a call: only `INIT` and `SETDOTS` write `DOTMASK` (R151, R154). -/
def EncoderCall.after (e : EncoderState) : EncoderCall → EncoderState
  | .init => .init
  | .setDots mask => ⟨mask⟩
  | .clear | .bright _ | .setRaw _ _ | .setDigit _ _ | .setDec _ _ _ | .setDecPad _ _ _ _
  | .setHexPad _ _ _ _ | .setChar _ _ | .setStr _ _ | .scroll _ => e

/-- The operations among actions, the only thing the block receives (R164). -/
def issued : List HostAction → List Instr
  | [] => []
  | .issue i :: rest => i :: issued rest
  | .wait _ :: rest => issued rest

/-- The operations a sequence of calls issues, the host state threaded through; none if a call is refused. -/
def issuedByCalls (h : HostConfig) (c : Config) : EncoderState → List EncoderCall → Option (List Instr)
  | _, [] => some []
  | e, k :: ks =>
    match k.actions h c e, issuedByCalls h c (k.after e) ks with
    | some acts, some rest => some (issued acts ++ rest)
    | none, _ => none
    | some _, none => none

/-- The numbers a call may carry: `value < 2^VALUE_BITS` (R150). -/
def EncoderCall.valueFits (h : HostConfig) : EncoderCall → Bool
  | .setDec value _ _ => decide (value < 2 ^ h.valueBits)
  | .setDecPad value _ _ _ => decide (value < 2 ^ h.valueBits)
  | .setHexPad value _ _ _ => decide (value < 2 ^ h.valueBits)
  | .init | .clear | .bright _ | .setDots _ | .setRaw _ _ | .setDigit _ _ | .setChar _ _ | .setStr _ _
  | .scroll _ => true

/-- An offset that a host may give or advance to: a digit position that is not the sentinel (43_host_sequences.md R157,
90_conflicts.md C10). The two differ only on a display of 256 digits. -/
def offsetInRange (c : Config) (n : Nat) : Bool := decide (n < c.digitCount) && n != sentinel.toNat

/-- The positions a call may reach are digit positions (70_reset_and_hazards.md R219; 93_implementation_defined.md U3,
90_conflicts.md C10): the caller's offset is in range, and so are the offset that left alignment advances to and the last
position of a string. Only the decrement from 0 inside a loop may leave the range. A position that is no offset may be any
digit position, 255 among them (notes/assumptions/25.md). -/
def EncoderCall.offsetFits (c : Config) : EncoderCall → Bool
  | .setRaw pos _ => decide (pos.toNat < c.digitCount)
  | .setDigit pos _ => decide (pos.toNat < c.digitCount)
  | .setChar pos _ => decide (pos.toNat < c.digitCount)
  | .setDec _ offset .right => offsetInRange c offset.toNat
  | .setDec value offset .left => offsetInRange c (offset.toNat + extraDigits value value)
  | .setDecPad _ offset _ _ => offsetInRange c offset.toNat
  | .setHexPad _ offset _ _ => offsetInRange c offset.toNat
  | .setStr offset s =>
    offsetInRange c offset.toNat && decide (offset.toNat + (stringChars s).length ≤ c.digitCount)
  | .init | .clear | .bright _ | .setDots _ | .scroll _ => true

/-- The display is "constructed once at program start" (R151), so a host "never issues `SETUP` twice" (R164): `INIT` is the
first call and no other. -/
def constructsOnce : List EncoderCall → Bool
  | [] => false
  | k :: ks => k == .init && ks.all fun x => x != .init

end Sys2Proof.Machine
end

