-- ==== Sys2Proof/Machine/Boot.lean ====
section
/-! DEFINITION. The start of the block and its host with a parameter set, and what a model refuses (00_scope.md R9). -/

namespace Sys2Proof.Machine

/-- The block right after reset and the host at program start (70_reset_and_hazards.md R210, R211). A parameter set that
fails a check of R9, the block's or the host's, is refused. -/
def boot? (p : ParameterSet) : Option (State × EncoderState) :=
  if p.wf then some (State.resetWith p.block, .init) else none

/-- A call that a host may make with these parameters. -/
def EncoderCall.admitted (p : ParameterSet) (k : EncoderCall) : Bool := k.valueFits p.host && k.offsetFits p.block

/-- The operations that a sequence of host calls issues from program start. Refused are a parameter set that fails R9, calls
in which `INIT` is not the first or not the only one (43_host_sequences.md R151, R164), a number wider than `VALUE_BITS`
(R150), an offset out of range (R219, 93_implementation_defined.md U3), and a `SCROLL` of too short a string (U8). -/
def hostProgram? (p : ParameterSet) (calls : List EncoderCall) : Option (List Instr) :=
  if p.wf && constructsOnce calls && calls.all (fun k => k.admitted p) then issuedByCalls p.host p.block .init calls
  else none

end Sys2Proof.Machine
end

