-- ==== Sys2Proof/Machine/Contract.lean ====
section
/-! DEFINITION. The host's contract: legal framing order (30_encoding.md R88), `SETUP` first (70_reset_and_hazards.md
R214), position range (R219), no reserved opcode (30_encoding.md R74). The block executes a program that breaks it; this
is where a model refuses such a program (60_exceptions.md R192, notes/assumptions/6.md). -/

namespace Sys2Proof.Machine

/-- Why a host program is refused (93_implementation_defined.md U2, U4, U5, U6). -/
inductive Breach
  /-- U6, R214: an operation other than `SETUP` before the first `SETUP`. -/
  | beforeSetup
  /-- U5, R220: an operation out of legal framing order. -/
  | outOfFramingOrder
  /-- U2, R219: `WRAT` with a position `≥ DIGIT_COUNT`. -/
  | positionOutOfRange
  /-- U4, R74: opcode 6 or 7. -/
  | reservedOpcode
  deriving DecidableEq, Repr

/-- Where a host program stands in the pattern `SETUP ( CMD | WRAT | START SENDB+ STOP )*` (R88). -/
inductive Stage
  /-- Nothing issued since reset. -/
  | fresh
  /-- Between frames. -/
  | idle
  /-- After `START`, no byte sent. -/
  | opened
  /-- After at least one `SENDB` of a hand-made frame. -/
  | inFrame
  deriving DecidableEq, Repr

/-- The verdict on one operation: the next stage, or the breach. -/
inductive Verdict
  | goOn (t : Stage)
  | refuse (b : Breach)
  deriving DecidableEq, Repr

/-- The place of one operation in the pattern of R88. -/
def frameStage (st : Stage) (i : Instr) : Option Stage :=
  match i with
  | .setup => if st = .fresh then some .idle else none
  | .start => if st = .idle then some .opened else none
  | .sendb _ => if st = .opened ∨ st = .inFrame then some .inFrame else none
  | .stop => if st = .inFrame then some .idle else none
  | .cmd _ | .wrat _ _ => if st = .idle then some .idle else none
  | .reserved6 | .reserved7 => none

/-- The contract for one operation. -/
def judge (c : Config) (st : Stage) (i : Instr) : Verdict :=
  if !i.defined then .refuse .reservedOpcode
  else if !i.positionInRange c then .refuse .positionOutOfRange
  else
    match frameStage st i with
    | some t => .goOn t
    | none => if st = .fresh then .refuse .beforeSetup else .refuse .outOfFramingOrder

/-- The contract for a program: the stage it ends in, or its first breach. -/
def judgeAll (c : Config) : Stage → List Instr → Verdict
  | st, [] => .goOn st
  | st, i :: rest =>
    match judge c st i with
    | .goOn t => judgeAll c t rest
    | .refuse b => .refuse b

/-- A program a model admits: it keeps the contract from reset and closes every frame it opens (R88, R220). -/
def admits (c : Config) (prog : List Instr) : Bool := judgeAll c .fresh prog == .goOn .idle

/-- The body of R88's pattern, `( CMD | WRAT | START SENDB+ STOP )*`, as a grammar. -/
inductive FramedBody : List Instr → Prop
  | done : FramedBody []
  | cmd (a : Byte) {rest : List Instr} : FramedBody rest → FramedBody (.cmd a :: rest)
  | wrat (a b : Byte) {rest : List Instr} : FramedBody rest → FramedBody (.wrat a b :: rest)
  | handMade (x : Byte) (xs : List Byte) {rest : List Instr} :
      FramedBody rest → FramedBody (.start :: .sendb x :: (xs.map .sendb ++ .stop :: rest))

/-- R88's pattern: `SETUP` first, then the body. -/
def LegalOrder (prog : List Instr) : Prop := ∃ body, prog = .setup :: body ∧ FramedBody body

/-- The stage a state of the block stands in, as far as its lines tell (70_reset_and_hazards.md R214: a direction is
`in`; 10_state.md R39: idle is `(1, 1)`, inside a frame `(1, 0)`). -/
def State.mayIssue (s : State) (i : Instr) : Bool :=
  if s.sclDir = .input ∨ s.sdaDir = .input then i == .setup
  else i.wf s.cfg &&
    match i with
    | .cmd _ | .wrat _ _ | .start => s.sda
    | .sendb _ | .stop => !s.sda
    | .setup | .reserved6 | .reserved7 => false

end Sys2Proof.Machine
end

