-- ==== Sys2Proof/Machine/Program.lean ====
section
/-! DEFINITION. A host program: operations issued one after the other, each complete before the next (20_memory.md R63). -/

namespace Sys2Proof.Machine

/-- The operations of a program in the order the host issues them. -/
def runAll : List Instr → State → Host.Outcome State Fault Refusal
  | [], s => .next s
  | i :: rest, s =>
    match exec i s with
    | .next t => runAll rest t
    | .fault r => .fault r
    | .refused r => .refused r

/-- The host's moves that present the command words of a program. -/
def presented (ws : List CommandWord) : List HostMove := ws.map .present

/-- The list of the operation that a command word names, as the sequencer reads it. -/
def wordList (c : Config) (w : CommandWord) : List MicroOp := seq c (opField w) (aField w) (bField w)

end Sys2Proof.Machine
end

