-- ==== Sys2Proof/Machine/DisplayMemory.lean ====
section
/-! DEFINITION. The reference slave's display memory: a list of address and byte cells in canonical form. An address that
is not listed is unspecified (20_memory.md R62: "unspecified until written"), so it reads as no value. -/

namespace Sys2Proof.Machine

/-- The cells written so far, addresses strictly rising. -/
abbrev Memory := List Host.Cell

/-- The canonical form: addresses strictly rise. No entry can equal what an unlisted address reads as, since that is no
value. -/
def Memory.wf : Memory → Bool
  | [] => true
  | [_] => true
  | c :: d :: rest => decide (c.1 < d.1) && Memory.wf (d :: rest)

/-- The byte at an address, or no value where nothing has been written. -/
def Memory.read (m : Memory) (p : Nat) : Option Byte :=
  match m with
  | [] => none
  | c :: rest => if c.1 = p then some c.2 else Memory.read rest p

/-- Writes one byte and keeps the canonical form. -/
def Memory.write (m : Memory) (p : Nat) (v : Byte) : Memory :=
  match m with
  | [] => [(p, v)]
  | c :: rest =>
    if p < c.1 then (p, v) :: c :: rest
    else if p = c.1 then (p, v) :: rest
    else c :: Memory.write rest p v

end Sys2Proof.Machine
end

