-- ==== Sys2Proof/Machine/Observe.lean ====
section
/-! DEFINITION. The observation: the projections of the trace (10_state.md R29), the wire symbols (20_memory.md R59) and
the frames (R66). -/

namespace Sys2Proof.Machine

/-- `drives(TRACE)`: the trace without its settle events (10_state.md R29). -/
def drives (es : List Event) : List Event := es.filter fun e => e != .settle

/-- Number of settle events. -/
def settleCount (es : List Event) : Nat := es.countP fun e => e == .settle

/-- Number of `Drive` events of one line (30_encoding.md R87). -/
def driveCount (line : Line) (es : List Event) : Nat :=
  es.countP fun e => match e with | .drive l _ => l == line | .dir _ _ | .settle => false

/-- Number of `Dir` events (R87). -/
def dirCount (es : List Event) : Nat :=
  es.countP fun e => match e with | .dir _ _ => true | .drive _ _ | .settle => false

/-- What an event says of the four line elements. -/
def Event.onLines (e : Event) (l : Lines) : Lines :=
  match e with
  | .dir .scl d => { l with sclDir := d }
  | .dir .sda d => { l with sdaDir := d }
  | .drive .scl v => { l with scl := v }
  | .drive .sda v => { l with sda := v }
  | .settle => l

/-- The line elements that a trace leaves, replayed from `l`. -/
def replay (es : List Event) (l : Lines) : Lines := es.foldl (fun l e => e.onLines l) l

/-- `own_scl`, `own_sda` (10_state.md R28): the latch where the line is driven, 1 where it is released. -/
def ownLevel (d : Direction) (v : Level) : Level :=
  match d with
  | .output => v
  | .input => true

/-- The pair `(own_scl, own_sda)` (R28). -/
def Lines.own (l : Lines) : Level × Level := (ownLevel l.sclDir l.scl, ownLevel l.sdaDir l.sda)

/-- The line elements after each `Dir` or `Drive` event of a trace that starts from `l`. -/
def lineStatesFrom (l : Lines) : List Event → List Lines
  | [] => []
  | .settle :: es => lineStatesFrom l es
  | .dir line d :: es => let l' := (Event.dir line d).onLines l; l' :: lineStatesFrom l' es
  | .drive line v :: es => let l' := (Event.drive line v).onLines l; l' :: lineStatesFrom l' es

/-- The line elements at reset and after each `Dir` or `Drive` event. -/
def lineStates (es : List Event) : List Lines := Lines.reset :: lineStatesFrom Lines.reset es

/-- `levels(TRACE)`, with the reset pair `(1, 1)` in front (10_state.md R29, 20_memory.md R59). -/
def levels (es : List Event) : List (Level × Level) := (lineStates es).map Lines.own

/-- The wire symbols of 20_memory.md R59. -/
inductive Symbol
  /-- `S`: data falls while the clock is high. -/
  | start
  /-- `P`: data rises while the clock is high. -/
  | stop
  /-- `BIT(v)`: the clock rises with data at `v`. -/
  | bit (v : Level)
  deriving DecidableEq, Repr

/-- The symbol of one step `(c, d) → (c', d')` (20_memory.md R59). -/
def symbolBetween (p q : Level × Level) : Option Symbol :=
  match p.1, p.2, q.1, q.2 with
  | true, true, true, false => some .start
  | true, false, true, true => some .stop
  | false, _, true, v => some (.bit v)
  | _, _, _, _ => none

/-- The symbols of a list of level pairs, in order. -/
def symbolsOfLevels : List (Level × Level) → List Symbol
  | [] => []
  | [_] => []
  | p :: q :: rest => (symbolBetween p q).toList ++ symbolsOfLevels (q :: rest)

/-- `symbols(TRACE)` (20_memory.md R59). -/
def symbols (es : List Event) : List Symbol := symbolsOfLevels (levels es)

/-- The symbols that events produce when the lines stand at `l` (40_line_primitives.md R104). -/
def symbolsFrom (l : Lines) (es : List Event) : List Symbol :=
  symbolsOfLevels (l.own :: (lineStatesFrom l es).map Lines.own)

/-- `byte = Σ bit_i · 2^i`, the first bit the least significant (20_memory.md R66). -/
def byteOfBits (bits : List Level) : Byte := BitVec.ofNat 8 (bits.foldr (fun v n => v.toNat + 2 * n) 0)

/-- How a frame ends. -/
inductive FrameEnd
  /-- Closed by a `P`. -/
  | stopped
  /-- Closed by another `S`, "marked `unterminated`". -/
  | unterminated
  /-- Still open where the trace ends. -/
  | inProgress
  deriving DecidableEq, Repr

/-- One frame: its groups of nine bits, each a byte and the acknowledge-slot bit, and how it ends. -/
structure Frame where
  groups : List (Byte × Level)
  ending : FrameEnd
  deriving DecidableEq, Repr

/-- The bytes of a frame, in the order sent. -/
def Frame.bytes (f : Frame) : List Byte := f.groups.map Prod.fst

/-- The acknowledge-slot bits of a frame. -/
def Frame.ackBits (f : Frame) : List Level := f.groups.map Prod.snd

/-- What `frames(TRACE)` lists. -/
inductive FrameItem
  | frame (f : Frame)
  /-- `P_idle`: a `P` outside any frame. -/
  | idleStop
  deriving DecidableEq, Repr

/-- The reader of frames: what it has listed, and the open frame with its whole groups and the bits since the last. -/
structure FrameReader where
  items : List FrameItem
  current : Option (List (Byte × Level) × List Level)
  deriving DecidableEq, Repr

/-- The reader before the first symbol. -/
def FrameReader.init : FrameReader := ⟨[], none⟩

/-- One more bit in an open frame: the ninth makes a group of it. -/
def takeBit (groups : List (Byte × Level)) (bits : List Level) (v : Level) : List (Byte × Level) × List Level :=
  if bits.length = 8 then (groups ++ [(byteOfBits bits, v)], []) else (groups, bits ++ [v])

/-- One symbol read (20_memory.md R66). A bit outside any frame is dropped and makes no item, so the reference slave keeps
all it held over a raw `SENDB` on an idle bus, though R54 and 93_implementation_defined.md U5 leave what it makes of one
unspecified (DESIGN CHOICE, notes/assumptions/21.md). -/
def FrameReader.read (r : FrameReader) : Symbol → FrameReader
  | .start =>
    match r.current with
    | none => ⟨r.items, some ([], [])⟩
    | some (groups, _) => ⟨r.items ++ [.frame ⟨groups, .unterminated⟩], some ([], [])⟩
  | .stop =>
    match r.current with
    | none => ⟨r.items ++ [.idleStop], none⟩
    | some (groups, _) => ⟨r.items ++ [.frame ⟨groups, .stopped⟩], none⟩
  | .bit v =>
    match r.current with
    | none => r
    | some (groups, bits) => ⟨r.items, some (takeBit groups bits v)⟩

/-- The list when no symbol is left: an open frame is listed as in progress (notes/assumptions/13.md). -/
def FrameReader.finish (r : FrameReader) : List FrameItem :=
  match r.current with
  | none => r.items
  | some (groups, _) => r.items ++ [.frame ⟨groups, .inProgress⟩]

/-- The reader after a list of symbols. -/
def readSymbols (ss : List Symbol) (r : FrameReader) : FrameReader := ss.foldl FrameReader.read r

/-- `frames(TRACE)` (20_memory.md R66). -/
def frames (es : List Event) : List FrameItem := (readSymbols (symbols es) .init).finish

/-- The frame `S, bytes, P` as the block sends it: every acknowledge-slot bit 0 (20_memory.md R66). -/
def sentFrame (bytes : List Byte) : FrameItem := .frame ⟨bytes.map fun x => (x, false), .stopped⟩

end Sys2Proof.Machine
end

