-- ==== Sys2Proof/Machine/Slave.lean ====
section
/-! DEFINITION. The reference slave of 20_memory.md R62, outside the block: the "host read-back" of a run. It is general
knowledge (93_implementation_defined.md G6); a claim through it carries it as an assumption. -/

namespace Sys2Proof.Machine

/-- The slave's write mode (R62). -/
inductive SlaveMode
  | fixed
  | auto
  deriving DecidableEq, Repr

/-- The reference slave. `none`, and an unlisted position of `disp`, mean unspecified: any value. -/
structure Slave where
  disp : Memory
  mode : Option SlaveMode
  on : Option Bool
  level : Option (BitVec 3)
  deriving DecidableEq, Repr

/-- All of the slave's state unspecified: before it is written, after power-on, after an unspecified frame
(20_memory.md R62, 93_implementation_defined.md U10; notes/assumptions/14.md, 16.md). -/
def Slave.unknown : Slave := ⟨[], none, none, none⟩

/-- The rows of R62's table for a frame `S, c, P`: when a row applies, and the state it leaves. -/
def commandRows (cfg : Config) (c : Byte) (s : Slave) : List (Bool × Slave) :=
  [(c == cfg.cmdDataFixed, { s with mode := some .fixed }),
   (c == cfg.cmdDataAuto, { s with mode := some .auto }),
   (c &&& ~~~(0x07 : Byte) == cfg.cmdDisplayOn,
     { s with on := some true, level := some (c.extractLsb' 0 3) })]

/-- A command frame. Where no row applies, or the parameters make more than one apply, the effect is unspecified
(notes/assumptions/14.md). -/
def Slave.command (cfg : Config) (c : Byte) (s : Slave) : Slave :=
  match (commandRows cfg c s).filter Prod.fst with
  | [row] => row.2
  | _ => .unknown

/-- The positions `p < DIGIT_COUNT` with `c = CMD_ADDR | p`; at most one under 00_scope.md R9. -/
def selectedPositions (cfg : Config) (c : Byte) : List Nat :=
  (List.range cfg.digitCount).filter fun p => c == cfg.cmdAddr ||| BitVec.ofNat 8 p

/-- A frame `S, c, d, P` (R62): `DISP[p] <- d`, whatever the mode, as R62's row has it (notes/assumptions/15.md). A frame
whose first byte names no position has an unspecified effect. The slave sees the frame and not the operation: where
`CMD_ADDR` absorbs the extra bits of a position out of range, the frame is that of a legal position and writes it, though
93_implementation_defined.md U2 lets the effect be any value (DESIGN CHOICE, notes/assumptions/22.md). -/
def Slave.data (cfg : Config) (c d : Byte) (s : Slave) : Slave :=
  match selectedPositions cfg c with
  | [p] => { s with disp := s.disp.write p d }
  | _ => .unknown

/-- The reaction to one item of `frames(TRACE)`. A frame still in progress has had no effect yet; every item that no row
of R62 names leaves the slave unspecified. The slave acts on a frame whatever operations made it: a frame with whole bytes
that a `START`, `SETUP`, `CMD` or `WRAT` issued inside it closes by raising data is closed by a `P` as R104 has it, and R62's
rows apply to it, though R54 and 93_implementation_defined.md U5 leave the slave's reading of such primitives unspecified
(DESIGN CHOICE, notes/assumptions/24.md). -/
def Slave.react (cfg : Config) (s : Slave) : FrameItem → Slave
  | .frame ⟨[(c, _)], .stopped⟩ => s.command cfg c
  | .frame ⟨[(c, _), (d, _)], .stopped⟩ => s.data cfg c d
  | .frame ⟨_, .stopped⟩ => .unknown
  | .frame ⟨_, .unterminated⟩ => .unknown
  | .frame ⟨_, .inProgress⟩ => s
  | .idleStop => .unknown

/-- The slave after a list of items. -/
def Slave.reactAll (cfg : Config) (s : Slave) (items : List FrameItem) : Slave :=
  items.foldl (Slave.react cfg) s

/-- The reference slave as a run leaves it, read off the trace since the block's last reset (60_exceptions.md R201). -/
def State.slave (s : State) : Slave := Slave.reactAll s.cfg .unknown (frames s.trace)

/-- The byte the reference slave shows at a position, if it is specified. -/
def Slave.shows (s : Slave) (p : Nat) : Option Byte := s.disp.read p

end Sys2Proof.Machine
end

