-- ==== Sys2Proof/Machine/Timing.lean ====
section
/-! DEFINITION. Lower bounds on the time a realisation takes (70_reset_and_hazards.md R217, R224). The machine itself is
untimed (notes/assumptions/18.md). -/

namespace Sys2Proof.Machine

/-- A realisation's run: each event with the clock cycles it takes. -/
abbrev TimedTrace := List (Event × Nat)

/-- A realisation of a list of events: the same events in the same order, none merged, each settle delay at least
`SETTLE_CYCLES` cycles, every other event any time (R217). -/
def Realises (c : Config) (es : List Event) (tt : TimedTrace) : Prop :=
  tt.map Prod.fst = es ∧ ∀ x ∈ tt, x.1 = .settle → c.settleCycles ≤ x.2

/-- The cycles a run takes. -/
def elapsed (tt : TimedTrace) : Nat := (tt.map Prod.snd).sum

/-- The minimum duration of a list of micro-operations, in units of `T_SETTLE` (R224). -/
def minDuration (ms : List MicroOp) : Nat := settleCount (ms.map MicroOp.event)

/-- The same in microseconds, `TIME_UNIT` each (00_scope.md R8). -/
def minMicroseconds (c : Config) (ms : List MicroOp) : Nat := minDuration ms * c.timeUnit

end Sys2Proof.Machine
end

