-- ==== Sys2Proof/Machine/Wire.lean ====
section
/-! DEFINITION. The pin port, the pads and the wires (10_state.md R28, R36, 60_exceptions.md R200), and the bus
environment (20_memory.md R60, R61). -/

namespace Sys2Proof.Machine

/-- The outputs of the pin port (10_state.md R36): each is the value of a state element. -/
structure PinPort where
  sclLevel : Level
  sdaLevel : Level
  sclDir : Direction
  sdaDir : Direction
  deriving DecidableEq, Repr

/-- The pin port of a state (R36). -/
def State.pins (s : State) : PinPort := ⟨s.scl, s.sda, s.sclDir, s.sdaDir⟩

/-- What a pad does to its line. -/
inductive PadOutput
  | letsGo
  | drives (v : Level)
  deriving DecidableEq, Repr

/-- The pad of 10_state.md R36: open drain pulls low when `dir = out` and `level = 0` and lets go otherwise; push-pull
drives the level when `dir = out` and lets go when `dir = in`. -/
def padOutput (style : PinStyle) (d : Direction) (v : Level) : PadOutput :=
  match style, d, v with
  | .openDrain, .output, false => .drives false
  | .openDrain, .output, true => .letsGo
  | .openDrain, .input, _ => .letsGo
  | .pushPull, .output, v => .drives v
  | .pushPull, .input, _ => .letsGo

/-- The environment's contribution: 1 lets the line go, 0 pulls it low (R28). -/
structure Env where
  scl : Level
  sda : Level
  deriving DecidableEq, Repr

/-- The level of a wire at sample `n`: the pull-up holds a line nobody pulls. A push-pull pad that drives high against
a low environment leaves the level free (R28, notes/assumptions/12.md). -/
def wireLevel (pad : PadOutput) (env : Level) (line : Line) (n : Nat) : Level :=
  match pad with
  | .letsGo => env
  | .drives false => false
  | .drives true => if env then true else Config.contendedWire line n

/-- `(WIRE_SCL, WIRE_SDA)` (R28). -/
def Lines.wires (l : Lines) (style : PinStyle) (env : Env) (n : Nat) : Level × Level :=
  (wireLevel (padOutput style l.sclDir l.scl) env.scl .scl n,
   wireLevel (padOutput style l.sdaDir l.sda) env.sda .sda n)

/-- The wire levels at the samples of a list of line states, numbered from `n`, under an environment. -/
def wireSamples (style : PinStyle) (env : Nat → Env) (n : Nat) : List Lines → List (Level × Level)
  | [] => []
  | l :: ls => l.wires style (env n) n :: wireSamples style env (n + 1) ls

/-- The wire levels at the same instants as `levels(TRACE)` (notes/assumptions/12.md). -/
def wireLevels (style : PinStyle) (env : Nat → Env) (es : List Event) : List (Level × Level) :=
  wireSamples style env 0 (lineStates es)

/-- The symbols on the wire. -/
def wireSymbols (style : PinStyle) (env : Nat → Env) (es : List Event) : List Symbol :=
  symbolsOfLevels (wireLevels style env es)

/-- The environment leaves alone everything that a symbol is made of: the clock always, and data wherever the block has
both lines high. It may pull data low where the block has it low, and anywhere under a low clock. The premise of 20_memory.md
R60 and R61 is stronger (`EnvKeepsToSlots`). -/
def EnvKeepsOff (env : Nat → Env) (es : List Event) : Prop :=
  ∀ n, (env n).scl = true ∧ ∀ l, (lineStates es)[n]? = some l → l.own.1 = true → l.own.2 = true → (env n).sda = true

/-- The samples of a program that runs from reset, `true` for those in an acknowledge slot: reset, then one sample for each
micro-operation that is no settle delay. -/
def sampleMarks (c : Config) (prog : List Instr) : List Bool :=
  false :: prog.flatMap fun i =>
    ((microOps c i).zip (slotMarks i)).filterMap fun x => if x.1 = .t then none else some x.2

/-- The premise of 20_memory.md R60 and R61 on the run of a program from reset: `ENV_SCL = 1` always, and `ENV_SDA = 1`
outside acknowledge slots. Within a slot the slave may pull data low or not. -/
def EnvKeepsToSlots (c : Config) (prog : List Instr) (env : Nat → Env) : Prop :=
  ∀ n, (env n).scl = true ∧ ((sampleMarks c prog)[n]? ≠ some true → (env n).sda = true)

end Sys2Proof.Machine
end

