-- ==== Sys2Proof/Safety.lean ====
section
/-! DEFINITION. The terms claims are stated in: what an operation leaves, the invariants of the block, a bus between frames,
distinct command classes. -/

namespace Sys2Proof.Machine

/-- `t` is what `s` becomes when the list `ms` has run whole and left the lines at `l`: the events of `ms` are appended to
the trace and nothing else the spec gives the machine is changed. `OP`, `A`, `B` and `PHASE` are not read while
`BUSY = 0` (10_state.md R25, R27) and are left out. -/
structure State.RanTo (s : State) (ms : List MicroOp) (l : Lines) (t : State) : Prop where
  lines : t.lines = l
  idle : t.busy = false
  trace : t.trace = s.trace ++ ms.map MicroOp.event
  params : t.cfg = s.cfg
  host : t.host = s.host

/-- The lines at a point where `BUSY = 0` (10_state.md R38): the clock latch is high, and the two directions agree,
because only `SETUP` writes them and it writes both. -/
def Lines.AtBoundary (l : Lines) : Prop := l.scl = true ∧ l.sclDir = l.sdaDir

/-- The invariant of the block. -/
structure State.Inv (s : State) : Prop where
  /-- The parameter set is one a model admits (00_scope.md R9). -/
  params : s.cfg.wf = true
  /-- The trace is the record of what the block did on its pins (10_state.md R29): replayed from reset it gives the line
  elements. -/
  replays : replay s.trace Lines.reset = s.lines
  /-- 10_state.md R38. -/
  boundary : s.busy = false → s.lines.AtBoundary
  /-- 10_state.md R27: `PHASE` stays within the list in flight, and the lines are where its first `PHASE` elements
  have brought them from an earlier boundary. -/
  inFlight : s.busy = true → s.phase.toNat ≤ s.inFlight.length ∧
    ∃ l, l.AtBoundary ∧ linesAfter (s.inFlight.take s.phase.toNat) l = s.lines

/-- Both lines driven, at these levels. -/
def Lines.driven (scl sda : Level) : Lines := ⟨scl, sda, .output, .output⟩

/-- The reader of frames after a trace. -/
def frameReader (es : List Event) : FrameReader := readSymbols (symbols es) .init

/-- The bus is idle between frames (10_state.md R39): nothing in flight, both lines driven high, the trace tells the
lines, and no frame is open. -/
structure State.BetweenFrames (s : State) : Prop where
  idle : s.busy = false
  lines : s.lines = Lines.driven true true
  replays : replay s.trace Lines.reset = s.lines
  closed : (frameReader s.trace).current = none

/-- The parameters give the three kinds of one-byte command different bytes, which the document leaves open
(30_encoding.md R83): a premise of claims about the reference slave. -/
def ClassesDistinct (c : Config) : Prop :=
  c.cmdDataFixed ≠ c.cmdDataAuto ∧ c.cmdDataFixed &&& ~~~(0x07 : Byte) ≠ c.cmdDisplayOn ∧
    c.cmdDataAuto &&& ~~~(0x07 : Byte) ≠ c.cmdDisplayOn

/-- What the outside can see of a state: the four line elements, `BUSY` and the trace (60_exceptions.md R201). -/
def State.visible (s : State) : Lines × Bool × List Event := (s.lines, s.busy, s.trace)

/-- Every line write is followed by a settle delay, but for the clock-low and data writes of a bit cell, which share one
(40_line_primitives.md R106); no direction write stands in the list. -/
def settledWrites : List MicroOp → Bool
  | [] => true
  | .c0 :: .t :: ms => settledWrites ms
  | .c0 :: .d0 :: .t :: ms => settledWrites ms
  | .c0 :: .d1 :: .t :: ms => settledWrites ms
  | .c1 :: .t :: ms => settledWrites ms
  | .d0 :: .t :: ms => settledWrites ms
  | .d1 :: .t :: ms => settledWrites ms
  | .t :: ms => settledWrites ms
  | _ :: _ => false

end Sys2Proof.Machine
end

