-- ==== Sys2Proof/Certificates/Slice0/Obligations.lean ====
section
/-! DEFINITION. The statements for the provers. `OP`, `A`, `B` are free values while `BUSY = 0` (notes/assumptions/4.md),
so no statement about an idle state speaks of them. -/

open Sys2Proof Sys2Proof.Machine

/-! ### Encoding -/

/-- 30_encoding.md R71, R72, R73, R84: the word of an operation decodes to it, every operand at every value, also as
the opcode table numbers its bits. -/
def Obligations.DecodeInvertsEncode : Prop :=
  ∀ (i : Instr) (nbits : Nat), decode (encode i) = i ∧ decodeTableWord nbits (encode i).toNat = some i

/-- 30_encoding.md R72: opcode values, operands used, and the mask and match values of the table; exactly one row
selects a word. -/
def Obligations.OpcodeSelectsTheOperation : Prop :=
  (∀ w : CommandWord,
    (opField w = 0 → decode w = .setup) ∧ (opField w = 1 → decode w = .start) ∧
    (opField w = 2 → decode w = .stop) ∧ (opField w = 3 → decode w = .sendb (aField w)) ∧
    (opField w = 4 → decode w = .cmd (aField w)) ∧ (opField w = 5 → decode w = .wrat (aField w) (bField w)) ∧
    (opField w = 6 → decode w = .reserved6) ∧ (opField w = 7 → decode w = .reserved7)) ∧
  (∀ w : CommandWord, (opcodeTable.filter fun r => r.selects w).map OpcodeRow.mnemonic = [(decode w).mnemonic]) ∧
  (∀ i : Instr, ∃ r ∈ opcodeTable, r.mnemonic = i.mnemonic ∧ r.mask = 0x70000 ∧
    r.pattern.toNat = i.opcode.toNat * 2 ^ 16)

/-- 30_encoding.md R73: an unused operand field changes neither the operation nor its list, an assembler writes zero
there, and a used field is taken as the 8-bit value it is, by the decoder and by the encoder. -/
def Obligations.UnusedFieldsAreIgnored : Prop :=
  (∀ (c : Config) (w w' : CommandWord), opField w = opField w' →
    (opField w = 0 ∨ opField w = 1 ∨ opField w = 2 → decode w = decode w' ∧ wordList c w = wordList c w') ∧
    (opField w = 3 ∨ opField w = 4 → aField w = aField w' → decode w = decode w' ∧ wordList c w = wordList c w')) ∧
  (∀ w : CommandWord,
    (opField w = 3 → decode w = .sendb (aField w)) ∧ (opField w = 4 → decode w = .cmd (aField w)) ∧
    (opField w = 5 → decode w = .wrat (aField w) (bField w))) ∧
  (∀ i : Instr,
    (i = .setup ∨ i = .start ∨ i = .stop → aField (encode i) = 0 ∧ bField (encode i) = 0) ∧
    (∀ x, i = .sendb x ∨ i = .cmd x → aField (encode i) = x ∧ bField (encode i) = 0) ∧
    (∀ x y, i = .wrat x y → aField (encode i) = x ∧ bField (encode i) = y))

/-- 95_test_vectors.md V14: words written out from R71 decode to their operations (a sanity statement). -/
def Obligations.SampleWordsDecode : Prop :=
  decode 0b0000000000000000000 = .setup ∧ decode 0b0010000000000000000 = .start ∧
  decode 0b0100000000000000000 = .stop ∧ decode 0b0110100010000000000 = .sendb 0x44 ∧
  decode 0b1001000111100000000 = .cmd 0x8F ∧ decode 0b1010000001001011011 = .wrat 2 0x5B ∧
  decode 0x10FFF = .start ∧ decode 0x34455 = .sendb 0x44 ∧
  decode 0x60000 = .reserved6 ∧ decode 0x7ABCD = .reserved7

/-- 00_scope.md R9: a parameter set that fails a check, the block's or the host's, is refused, and so is every host program
with it; one that passes them all boots (`SETTLE_CYCLES ≥ 1` is R8's). -/
def Obligations.ParameterSetsAreChecked : Prop :=
  ∀ p : ParameterSet,
    let passes := 1 ≤ p.block.digitCount ∧
      (∀ q < p.block.digitCount, q < 256 ∧ p.block.cmdAddr &&& BitVec.ofNat 8 q = 0) ∧
      p.block.cmdDisplayOn &&& 0x07 = 0 ∧ ((List.range 8).countP fun i => p.host.segDp.getLsbD i) = 1 ∧
      1 ≤ p.block.settleCycles
    (passes → boot? p = some (State.resetWith p.block, .init)) ∧
    (¬ passes → boot? p = none ∧ ∀ calls, hostProgram? p calls = none)

/-! ### Micro-operations and their lists -/

/-- 00_scope.md R11: the table of micro-operations, effect and event, on every state. -/
def Obligations.MicroOperationTable : Prop :=
  ∀ s : State,
    perform .dirc s = { s with sclDir := .output, trace := s.trace ++ [.dir .scl .output] } ∧
    perform .dird s = { s with sdaDir := .output, trace := s.trace ++ [.dir .sda .output] } ∧
    perform .c0 s = { s with scl := false, trace := s.trace ++ [.drive .scl false] } ∧
    perform .c1 s = { s with scl := true, trace := s.trace ++ [.drive .scl true] } ∧
    perform .d0 s = { s with sda := false, trace := s.trace ++ [.drive .sda false] } ∧
    perform .d1 s = { s with sda := true, trace := s.trace ++ [.drive .sda true] } ∧
    perform .t s = { s with trace := s.trace ++ [.settle] }

/-- 30_encoding.md R87: the totals of every operation, whatever its operands and the parameters, and the rising clock
edges of the composites from an idle bus. -/
def Obligations.OperationCounts : Prop :=
  ∀ (c : Config) (a b : Byte),
    [Instr.setup, .start, .stop, .sendb a, .cmd a, .wrat a b].map
      (fun i =>
        let es := (microOps c i).map MicroOp.event
        ((microOps c i).length, settleCount es, driveCount .scl es, driveCount .sda es, dirCount es)) =
      [(4, 0, 1, 1, 2), (6, 3, 1, 2, 0), (8, 4, 2, 2, 0), (45, 18, 18, 9, 0), (59, 25, 21, 13, 0),
        (164, 69, 60, 35, 0)] ∧
    [Instr.cmd a, .wrat a b].map
      (fun i => (symbolsFrom (Lines.driven true true) ((microOps c i).map MicroOp.event)).countP
        fun y => y == .bit true || y == .bit false) = [10, 29]

/-- 40_line_primitives.md R106, 70_reset_and_hazards.md R225: in every list but `SETUP`'s each line write is followed by
a settle delay, the clock-low and data writes of a bit cell sharing one; `SETUP` has none. -/
def Obligations.DelaysFollowLineWrites : Prop :=
  ∀ (c : Config) (i : Instr),
    (i ≠ .setup → settledWrites (microOps c i) = true) ∧ (i = .setup → MicroOp.t ∉ microOps c i)

/-- 30_encoding.md R81: the byte that begins the second frame of `WRAT` is the OR, whatever the position, and a sum on
legal positions. -/
def Obligations.AddressByteIsOrAndSum : Prop :=
  ∀ (c : Config) (a b : Byte),
    (wratList c a b).drop (59 + 6) = byteList (c.cmdAddr ||| a) ++ byteList b ++ stopList ++ [.t] ∧
    (c.wf = true → a.toNat < c.digitCount → c.cmdAddr ||| a = c.cmdAddr + a)

/-! ### The operations: completion, result and frame -/

/-- 40_line_primitives.md R101: `SETUP` from every idle state; the symbols of its corner cases (a) to (d). -/
def Obligations.SetupRuns : Prop :=
  (∀ s : State, s.busy = false → ∃ t, exec .setup s = .next t ∧
    s.RanTo [.dirc, .dird, .c1, .d1] ⟨true, true, .output, .output⟩ t) ∧
  (let es := setupList.map MicroOp.event
   symbolsFrom Lines.reset es = [] ∧ symbolsFrom (Lines.driven true true) es = [] ∧
   symbolsFrom (Lines.driven true false) es = [.stop] ∧
   symbolsFrom ⟨false, false, .input, .input⟩ es = [.bit false, .stop])

/-- 40_line_primitives.md R102: `START` from every idle state; directions unchanged. -/
def Obligations.StartRuns : Prop :=
  ∀ s : State, s.busy = false → ∃ t, exec .start s = .next t ∧
    s.RanTo [.c1, .t, .d1, .t, .d0, .t] { s.lines with scl := true, sda := false } t

/-- 40_line_primitives.md R103: `STOP` from every idle state; directions unchanged. -/
def Obligations.StopRuns : Prop :=
  ∀ s : State, s.busy = false → ∃ t, exec .stop s = .next t ∧
    s.RanTo [.c0, .t, .d0, .t, .c1, .t, .d1, .t] { s.lines with scl := true, sda := true } t

/-- 41_byte_transfer.md R121: `SENDB a` from every idle state: eight cells, bit 0 first, then the acknowledge slot with
data low; the end levels do not depend on `a`. -/
def Obligations.SendbRuns : Prop :=
  ∀ (a : Byte) (s : State), s.busy = false → ∃ t, exec (.sendb a) s = .next t ∧
    s.RanTo
      ((List.range 8).flatMap (fun i => [MicroOp.c0, if a.getLsbD i then .d1 else .d0, .t, .c1, .t]) ++
        [.c0, .d0, .t, .c1, .t])
      { s.lines with scl := true, sda := false } t

/-- 42_transactions.md R131: `CMD a` from every idle state is START, SENDB, STOP with nothing between. -/
def Obligations.CmdRuns : Prop :=
  ∀ (a : Byte) (s : State), s.busy = false → ∃ t, exec (.cmd a) s = .next t ∧
    s.RanTo ([.c1, .t, .d1, .t, .d0, .t] ++ sendbList a ++ [.c0, .t, .d0, .t, .c1, .t, .d1, .t])
      { s.lines with scl := true, sda := true } t

/-- 42_transactions.md R132, R133, R138: `WRAT a, b` from every idle state and for every position, in range or not. -/
def Obligations.WratRuns : Prop :=
  ∀ (a b : Byte) (s : State), s.busy = false → ∃ t, exec (.wrat a b) s = .next t ∧
    s.RanTo
      (startList ++ sendbList s.cfg.cmdDataFixed ++ stopList ++
        startList ++ sendbList (s.cfg.cmdAddr ||| a) ++ sendbList b ++ stopList ++ [.t])
      { s.lines with scl := true, sda := true } t

/-- 30_encoding.md R74: a reserved opcode writes no line and appends no event. That the model runs it, where the spec
lets a model refuse, is the model's choice (notes/assumptions/5.md). -/
def Obligations.ReservedOpcodesDoNothing : Prop :=
  ∀ (i : Instr) (s : State), i = .reserved6 ∨ i = .reserved7 → s.busy = false →
    ∃ t, exec i s = .next t ∧ s.RanTo [] s.lines t

/-- 60_exceptions.md R190, 40_line_primitives.md R100: no operation and no step raises anything or hangs. That none is
refused either is the model's choice: reserved opcodes (notes/assumptions/5.md) and programs outside the contract
(notes/assumptions/6.md) run, where the spec lets a model refuse them, and `PHASE` above the list leaves the state
(notes/assumptions/10.md). -/
def Obligations.NothingEverStops : Prop :=
  (∀ (i : Instr) (s : State), ∃ t, exec i s = .next t) ∧ ∀ s : State, ∃ t, step s = .next t

/-- 10_state.md R31, 70_reset_and_hazards.md R215: an operation presented while `BUSY = 1` has no effect, and the step
that finishes the operation in flight leaves the word presented. -/
def Obligations.BusyBlockAcceptsNothing : Prop :=
  ∀ s : State, s.busy = true →
    (∀ i, exec i s = .next s) ∧
    ∀ w rest t, s.host = .present w :: rest → step s = .next t → t.host = s.host

/-- 10_state.md R23: only `SETUP` writes a direction, it writes `out`, and nothing but reset takes a line back. -/
def Obligations.OnlySetupWritesDirections : Prop :=
  (∀ (i : Instr) (s t : State), exec i s = .next t →
    (i ≠ .setup → t.sclDir = s.sclDir ∧ t.sdaDir = s.sdaDir) ∧
    (i = .setup → s.busy = false → t.sclDir = .output ∧ t.sdaDir = .output)) ∧
  ∀ s t : State, (∀ rest, s.host ≠ .reset :: rest) → step s = .next t →
    (s.sclDir = .output → t.sclDir = .output) ∧ (s.sdaDir = .output → t.sdaDir = .output)

/-- 20_memory.md R56: the same operation issued again leaves the same lines and flag; only the trace grows. -/
def Obligations.RepeatingOnlyGrowsTheTrace : Prop :=
  ∀ (i : Instr) (s t u : State), s.busy = false → exec i s = .next t → exec i t = .next u →
    u.lines = t.lines ∧ u.busy = t.busy ∧ u.cfg = t.cfg ∧ u.host = t.host ∧ t.trace <+: u.trace

/-! ### The sequencer -/

/-- 10_state.md R31: acceptance, and what a presented word does not do while `BUSY = 1`. R31 speaks of opcodes 0 to 5; that
opcodes 6 and 7 are latched alike is the model's choice (notes/assumptions/5.md). -/
def Obligations.AcceptLatchesTheCommandWord : Prop :=
  ∀ (p : PortInput) (s : State), p.rst = false →
    (s.busy = false → p.opValid = true →
      let t := tick p s
      t.op = opField p.opWord ∧ t.a = aField p.opWord ∧ t.b = bField p.opWord ∧ t.phase = 0 ∧ t.busy = true ∧
        t.trace = s.trace ∧ t.lines = s.lines ∧ t.cfg = s.cfg ∧ t.host = s.host) ∧
    (s.busy = true → ∀ q : PortInput, q.rst = false → tick q s = tick p s)

/-- 10_state.md R32: one tick executes exactly one micro-operation, whatever the wires say. -/
def Obligations.ExecutePerformsOneMicroOperation : Prop :=
  ∀ (p : PortInput) (s : State), p.rst = false → s.busy = true → s.phase.toNat < s.inFlight.length →
    ∃ m, s.inFlight[s.phase.toNat]? = some m ∧ tick p s = { perform m s with phase := s.phase + 1 }

/-- 10_state.md R33: completion clears `BUSY` and appends nothing. -/
def Obligations.CompleteClearsBusy : Prop :=
  ∀ (p : PortInput) (s : State), p.rst = false → s.busy = true → s.phase.toNat = s.inFlight.length →
    let t := tick p s
    t.busy = false ∧ t.trace = s.trace ∧ t.lines = s.lines ∧ t.phase = s.phase ∧ t.cfg = s.cfg ∧ t.host = s.host

/-- 10_state.md R21 to R23: a line element changes only by its own micro-operations. -/
def Obligations.LinesChangeOnlyByTheirMicroOperations : Prop :=
  ∀ (p : PortInput) (s : State), p.rst = false →
    ((tick p s).scl ≠ s.scl → s.busy = true ∧
      (s.inFlight[s.phase.toNat]? = some .c0 ∨ s.inFlight[s.phase.toNat]? = some .c1)) ∧
    ((tick p s).sda ≠ s.sda → s.busy = true ∧
      (s.inFlight[s.phase.toNat]? = some .d0 ∨ s.inFlight[s.phase.toNat]? = some .d1)) ∧
    ((tick p s).sclDir ≠ s.sclDir → s.busy = true ∧ s.inFlight[s.phase.toNat]? = some .dirc) ∧
    ((tick p s).sdaDir ≠ s.sdaDir → s.busy = true ∧ s.inFlight[s.phase.toNat]? = some .dird)

/-- 10_state.md R34, 20_memory.md R65: the step is exactly the small steps, whatever the inputs do after acceptance: one
tick to accept, one for each micro-operation, one to complete; and for an operation in flight, the rest of them. That
opcodes 6 and 7 are accepted like the others is the model's choice (notes/assumptions/5.md). -/
def Obligations.StepIsARunOfTicks : Prop :=
  (∀ (s t : State) (w : CommandWord) (rest : List HostMove) (input : Nat → PortInput),
    s.busy = false → s.host = .present w :: rest → step s = .next t →
    (input 0).opValid = true → (input 0).opWord = w → (∀ k, (input k).rst = false) →
    ticks input ((wordList s.cfg w).length + 2) { s with host := rest } = t) ∧
  ∀ (s t : State) (input : Nat → PortInput),
    s.busy = true → s.phase.toNat ≤ s.inFlight.length → (∀ rest, s.host ≠ .reset :: rest) → step s = .next t →
    (∀ k, (input k).rst = false) → ticks input (s.inFlight.length - s.phase.toNat + 1) s = t

/-- 10_state.md R24, 40_line_primitives.md R100: `BUSY` is 1 from acceptance until the last micro-operation is done, and
then 0; the block cannot hang, whatever the bus does. For opcodes 6 and 7 R74 says that `BUSY` may rise and fall; that it does
is the model's choice (notes/assumptions/5.md). -/
def Obligations.BusyFromAcceptanceToCompletion : Prop :=
  ∀ (s : State) (input : Nat → PortInput), s.busy = false → (input 0).opValid = true →
    (∀ k, (input k).rst = false) →
    let n := (wordList s.cfg (input 0).opWord).length
    (∀ k, 1 ≤ k → k ≤ n + 1 → (ticks input k s).busy = true) ∧ (ticks input (n + 2) s).busy = false

/-- 41_byte_transfer.md R123, 42_transactions.md R136: the block samples nothing, so what the bus answers, at the
acknowledge slot or anywhere, changes no state and no trace. -/
def Obligations.TheBusIsNeverSampled : Prop :=
  ∀ (s : State) (p q : Nat → PortInput) (n : Nat),
    (∀ k, (p k).opValid = (q k).opValid ∧ (p k).opWord = (q k).opWord ∧ (p k).rst = (q k).rst) →
    ticks p n s = ticks q n s

/-- 10_state.md R25, R27: while `BUSY = 0` no rule reads `OP`, `A`, `B` or `PHASE`: idle states that differ only there
look the same for ever. -/
def Obligations.IdleLatchesAreNeverRead : Prop :=
  ∀ (s : State) (op : BitVec 3) (a b : Byte) (phase : BitVec 8) (input : Nat → PortInput) (n : Nat),
    s.busy = false →
    (ticks input n { s with op := op, a := a, b := b, phase := phase }).visible = (ticks input n s).visible

/-! ### Reset -/

/-- 70_reset_and_hazards.md R210: the state after reset, at power-on and from any state, in mid-operation too; both
lines are released, and nothing is known about the slave. -/
def Obligations.ResetState : Prop :=
  (∀ c : Config, (State.resetWith c).lines = ⟨true, true, .input, .input⟩ ∧ (State.resetWith c).busy = false ∧
    (State.resetWith c).phase = 0 ∧ (State.resetWith c).trace = []) ∧
  ∀ (p : PortInput) (s : State), p.rst = true →
    let t := tick p s
    t.lines = ⟨true, true, .input, .input⟩ ∧ t.busy = false ∧ t.phase = 0 ∧ t.trace = [] ∧
      t.lines.own = (true, true) ∧ t.slave = Slave.unknown ∧ t.cfg = s.cfg

/-- 10_state.md R37, 60_exceptions.md R195: reset wins over the operation in flight and over a presented word; cutting a
frame with the clock high and data low releases data under a high clock, a STOP condition on the wire. -/
def Obligations.ResetWinsAndReleasesTheBus : Prop :=
  (∀ (s : State) (rest : List HostMove), s.host = .reset :: rest →
    ∃ t, step s = .next t ∧ t.lines = Lines.reset ∧ t.busy = false ∧ t.trace = [] ∧ t.host = rest) ∧
  ∀ (p : PortInput) (s : State), p.rst = true → s.lines = Lines.driven true false →
    symbolBetween s.lines.own (tick p s).lines.own = some .stop

/-! ### Invariants -/

/-- The invariant holds right after reset, for every parameter set the model admits, and of `State.reset`, whose parameter
values are the model's (notes/assumptions/2.md). -/
def Obligations.ResetHasTheInvariant : Prop :=
  State.reset.Inv ∧ ∀ c : Config, c.wf = true → (State.resetWith c).Inv

/-- 10_state.md R27, R29, R38: every step keeps the invariant. -/
def Obligations.StepKeepsTheInvariant : Prop :=
  ∀ s t : State, s.Inv → step s = .next t → t.Inv

/-- 10_state.md R27, R29, R38: every tick keeps the invariant, whatever the inputs, reset in mid-operation included. -/
def Obligations.TickKeepsTheInvariant : Prop :=
  ∀ (p : PortInput) (s : State), s.Inv → (tick p s).Inv

/-- 10_state.md R39: the levels after each operation of any program, legal framing or not, before `SETUP` too, and until
the next operation is accepted; driven lines stay driven. -/
def Obligations.LevelsAfterAnyProgram : Prop :=
  ∀ (prog : List Instr) (i : Instr) (s : State), s.busy = false → i.defined = true →
    ∃ t, runAll (prog ++ [i]) s = .next t ∧ t.busy = false ∧
      (i = .setup ∨ i = .stop ∨ (∃ a, i = .cmd a) ∨ (∃ a b, i = .wrat a b) → t.scl = true ∧ t.sda = true) ∧
      (i = .start ∨ (∃ a, i = .sendb a) → t.scl = true ∧ t.sda = false) ∧
      (s.sclDir = .output → t.sclDir = .output) ∧ (s.sdaDir = .output → t.sdaDir = .output) ∧
      ∀ p : PortInput, p.rst = false → p.opValid = false → (tick p t).lines = t.lines

/-! ### The wire -/

/-- 40_line_primitives.md R104: the symbols each primitive produces from each boundary state. -/
def Obligations.SymbolsOfThePrimitives : Prop :=
  let from_ := fun d ms => symbolsFrom (Lines.driven true d) (List.map MicroOp.event ms)
  from_ true startList = [.start] ∧ from_ false startList = [.stop, .start] ∧
  from_ false stopList = [.bit false, .stop] ∧ from_ true stopList = [.bit false, .stop] ∧
  (∀ (d : Level) (x : Byte), from_ d (sendbList x) =
    (List.range 8).map (fun i => Symbol.bit (x.getLsbD i)) ++ [.bit false]) ∧
  from_ true setupList = [] ∧ from_ false setupList = [.stop]

/-- 40_line_primitives.md R105: after any operations one `STOP` makes the bus idle, and from inside an open frame a
composite first closes it with a `P` and then produces what it produces from an idle bus, an `S` and then the bits of
its first byte. -/
def Obligations.CompositesReframeTheBus : Prop :=
  (∀ (prog : List Instr) (s : State), s.busy = false →
    ∃ t, runAll (prog ++ [.stop]) s = .next t ∧ t.busy = false ∧ t.scl = true ∧ t.sda = true) ∧
  ∀ (c : Config) (a b : Byte) (i : Instr), i = .cmd a ∨ i = .wrat a b →
    symbolsFrom (Lines.driven true false) ((microOps c i).map MicroOp.event) =
      .stop :: symbolsFrom (Lines.driven true true) ((microOps c i).map MicroOp.event) ∧
    ∃ rest, symbolsFrom (Lines.driven true true) ((microOps c i).map MicroOp.event) =
      .start :: (List.range 8).map
        (fun k => Symbol.bit ((match i with | .wrat _ _ => c.cmdDataFixed | _ => a).getLsbD k)) ++ rest

/-- 70_reset_and_hazards.md R214: before `SETUP` the latches follow the list and nothing reaches the wire. -/
def Obligations.NothingReachesTheWireBeforeSetup : Prop :=
  ∀ (i : Instr) (s t : State), s.Inv → s.busy = false → s.sclDir = .input → i ≠ .setup → exec i s = .next t →
    t.lines = linesAfter (microOps s.cfg i) s.lines ∧ t.sclDir = .input ∧ t.sdaDir = .input ∧
      t.lines.own = (true, true) ∧ symbols t.trace = symbols s.trace

/-- 10_state.md R28, R36: an open-drain wire is the AND of both sides; a push-pull wire is the same wherever the
environment does not pull low a line the block drives high. -/
def Obligations.WireIsTheAndOfBothSides : Prop :=
  ∀ (l : Lines) (env : Env) (n : Nat),
    l.wires .openDrain env n = (l.own.1 && env.scl, l.own.2 && env.sda) ∧
    ((l.sclDir = .output → l.scl = true → env.scl = true) → (l.sdaDir = .output → l.sda = true → env.sda = true) →
      l.wires .pushPull env n = (l.own.1 && env.scl, l.own.2 && env.sda))

/-- 20_memory.md R59, R60, R61: the wire carries the block's symbols, in both pad styles: on any trace while the environment
leaves alone the clock, and data where both lines are high; and on the run of any program that begins with `SETUP`, under
R60's own premise, the slave pulling as it likes in acknowledge slots. That the wire is sampled at the block's own events is
the model's choice (notes/assumptions/12.md). -/
def Obligations.TheWireCarriesTheSymbols : Prop :=
  (∀ (style : PinStyle) (env : Nat → Env) (es : List Event), EnvKeepsOff env es →
    wireSymbols style env es = symbols es) ∧
  ∀ (c : Config) (prog : List Instr), ∃ t, runAll (.setup :: prog) (State.resetWith c) = .next t ∧
    ∀ (style : PinStyle) (env : Nat → Env), EnvKeepsToSlots c (.setup :: prog) env →
      wireSymbols style env t.trace = symbols t.trace

/-- 41_byte_transfer.md R122, 20_memory.md R60: throughout the acknowledge slot of `SENDB`, from its data write on, the
wire's data is 0 whatever the environment does. -/
def Obligations.AcknowledgeSlotIsInvisible : Prop :=
  ∀ (a : Byte) (sda : Level) (style : PinStyle) (env : Env) (n k : Nat), 42 ≤ k → k ≤ 45 →
    ((linesAfter ((sendbList a).take k) (Lines.driven true sda)).wires style env n).2 = false

/-- 40_line_primitives.md R101: after reset, `SETUP` alone brings the bus to idle between frames, and the slave has seen
nothing. -/
def Obligations.SetupOpensTheBus : Prop :=
  ∀ c : Config, ∃ t, exec .setup (State.resetWith c) = .next t ∧ t.BetweenFrames ∧ frames t.trace = [] ∧
    symbols t.trace = []

/-- 30_encoding.md R79: `CMD a` from an idle bus is the one frame `S, a, P`, symbol by symbol. -/
def Obligations.CmdSendsOneFrame : Prop :=
  ∀ (a : Byte) (s : State), s.BetweenFrames → ∃ t, exec (.cmd a) s = .next t ∧ t.BetweenFrames ∧
    frames t.trace = frames s.trace ++ [sentFrame [a]] ∧
    symbols t.trace = symbols s.trace ++
      (.start :: (List.range 8).map (fun i => Symbol.bit (a.getLsbD i)) ++ [.bit false, .bit false, .stop])

/-- 30_encoding.md R80: `WRAT a, b` from an idle bus is two frames, then one extra settle delay. -/
def Obligations.WratSendsTwoFrames : Prop :=
  ∀ (a b : Byte) (s : State), s.BetweenFrames → ∃ t, exec (.wrat a b) s = .next t ∧ t.BetweenFrames ∧
    frames t.trace = frames s.trace ++ [sentFrame [s.cfg.cmdDataFixed], sentFrame [s.cfg.cmdAddr ||| a, b]] ∧
    ∃ es, t.trace = s.trace ++ es ++ [.drive .sda true, .settle, .settle]

/-- 20_memory.md R66, 41_byte_transfer.md R121: a frame made by hand, `START`, any number of `SENDB`, `STOP`, carries
exactly its bytes, every acknowledge bit 0. -/
def Obligations.HandMadeFrameCarriesItsBytes : Prop :=
  ∀ (xs : List Byte) (s : State), s.BetweenFrames →
    ∃ t, runAll (.start :: (xs.map .sendb ++ [.stop])) s = .next t ∧ t.BetweenFrames ∧
      frames t.trace = frames s.trace ++ [sentFrame xs]

/-! ### Order, steps and time -/

/-- The step of an idle block with a command word presented is `exec` of the decoded operation, the word taken off the
host's list; a word placed by `withFetchWord` is that word. -/
def Obligations.PresentedWordRuns : Prop :=
  (∀ (s : State) (w : CommandWord) (rest : List HostMove), s.busy = false → s.host = .present w :: rest →
    step s = exec (decode w) { s with host := rest }) ∧
  ∀ (s : State) (nbits w : Nat) (i : Instr), decodeTableWord nbits w = some i →
    step (s.withFetchWord nbits w) = exec i { s with busy := false, host := s.host.tail }

/-- 20_memory.md R63: no step but a reset takes an event back. -/
def Obligations.StepOnlyExtendsTheTrace : Prop :=
  ∀ s t : State, (∀ rest, s.host ≠ .reset :: rest) → step s = .next t → s.trace <+: t.trace ∧ t.cfg = s.cfg

/-- 20_memory.md R63: operations take effect in the order issued, the events of each in the order of its list and all
before those of the next. The list of the host's words (notes/assumptions/7.md) and that the reserved opcodes among them run
(notes/assumptions/5.md) are the model's choices. -/
def Obligations.ProgramsRunInOrder : Prop :=
  ∀ (ws : List CommandWord) (rest : List HostMove) (s : State), s.busy = false → s.host = presented ws ++ rest →
    ∃ t, Sys2Proof.core.run ws.length s = .next t ∧ t.busy = false ∧ t.host = rest ∧ t.cfg = s.cfg ∧
      t.trace = s.trace ++ ws.flatMap fun w => (wordList s.cfg w).map MicroOp.event

/-- 70_reset_and_hazards.md R217, R224: a realisation of an operation takes at least `SETTLE_CYCLES` cycles for each of
its settle delays: 0, 3, 4, 18, 25, 69. -/
def Obligations.SettleDelaysBoundTheTime : Prop :=
  (∀ (c : Config) (i : Instr) (tt : TimedTrace), Realises c ((microOps c i).map MicroOp.event) tt →
    c.settleCycles * minDuration (microOps c i) ≤ elapsed tt) ∧
  ∀ (c : Config) (a b : Byte),
    [Instr.setup, .start, .stop, .sendb a, .cmd a, .wrat a b].map (fun i => minDuration (microOps c i)) =
      [0, 3, 4, 18, 25, 69]

/-! ### The reference slave and the host -/

/-- 20_memory.md R57, R62 (notes/assumptions/14.md): on an idle bus, `WRAT a, b` at a legal position makes the reference slave show
`b` there and leaves every other position, the enable and the level as they were. Premises on the parameters: R9 and
distinct command classes. -/
def Obligations.WratWritesTheReferenceDisplay : Prop :=
  ∀ (a b : Byte) (s : State), s.BetweenFrames → s.cfg.wf = true → ClassesDistinct s.cfg →
    a.toNat < s.cfg.digitCount →
    ∃ t, exec (.wrat a b) s = .next t ∧ t.slave.shows a.toNat = some b ∧
      (∀ q, q ≠ a.toNat → t.slave.shows q = s.slave.shows q) ∧
      t.slave.mode = some .fixed ∧ t.slave.on = s.slave.on ∧ t.slave.level = s.slave.level

/-- 70_reset_and_hazards.md R212: after the boot sequence the bus is idle, the reference slave is on at the default
brightness, in fixed-address mode, and blank at every position. The slave is general knowledge
(notes/assumptions/14.md). -/
def Obligations.BootBlanksTheReferenceDisplay : Prop :=
  ∀ (h : HostConfig) (c : Config), c.wf = true → ClassesDistinct c →
    ∃ t, runAll (initSequence h c) (State.resetWith c) = .next t ∧ t.BetweenFrames ∧
      t.slave.on = some true ∧ t.slave.level = some h.defaultBrightness ∧ t.slave.mode = some .fixed ∧
      ∀ p < c.digitCount, t.slave.shows p = some 0

/-- 70_reset_and_hazards.md R212: the boot sequence in full and its number of micro-operations. -/
def Obligations.BootSequenceCounts : Prop :=
  ∀ (h : HostConfig) (c : Config),
    initSequence h c = [.setup, .cmd c.cmdDataAuto, .cmd (c.cmdDisplayOn ||| (h.defaultBrightness.setWidth 8 &&& 0x07))] ++
      (List.range c.digitCount).map (fun p => Instr.wrat (BitVec.ofNat 8 p) 0) ∧
    ((initSequence h c).flatMap (microOps c)).length = 4 + 2 * 59 + 164 * c.digitCount

/-- 30_encoding.md R88: the decidable contract admits exactly the programs of the pattern whose operations are legal. -/
def Obligations.ContractIsTheFramingGrammar : Prop :=
  ∀ (c : Config) (prog : List Instr),
    admits c prog = true ↔ LegalOrder prog ∧ ∀ i ∈ prog, i.wf c = true

/-- 43_host_sequences.md R164: a call other than `INIT` issues only `CMD` and `WRAT`, `SETDOTS` nothing, `BRIGHT` one
`CMD`. That every call but a `SCROLL` has its actions, calls out of range among them, is the model's choice
(notes/assumptions/17.md, 25.md). -/
def Obligations.EncoderIssuesOnlyComposites : Prop :=
  ∀ (h : HostConfig) (c : Config) (e : EncoderState) (k : EncoderCall),
    (∀ acts, k ≠ .init → k.actions h c e = some acts →
      ∀ i ∈ issued acts, (∃ a, i = .cmd a) ∨ ∃ a b, i = .wrat a b) ∧
    ((∀ s, k ≠ .scroll s) → ∃ acts, k.actions h c e = some acts) ∧
    (∀ mask, k = .setDots mask → k.actions h c e = some []) ∧
    (∀ level, k = .bright level → k.actions h c e = some [.issue (.cmd (c.cmdDisplayOn ||| (level &&& 0x07)))])

/-- 43_host_sequences.md R164, 30_encoding.md R88: `INIT` and then any calls that stay in range keep the contract; and
every program of `hostProgram?`, which refuses calls out of range, keeps it, issuing `SETUP` first and once. -/
def Obligations.EncoderKeepsTheContract : Prop :=
  (∀ (h : HostConfig) (c : Config) (e : EncoderState) (calls : List EncoderCall) (prog : List Instr), c.wf = true →
    (∀ k ∈ calls, k ≠ .init) → issuedByCalls h c e (.init :: calls) = some prog →
    (∀ i ∈ prog, i.positionInRange c = true) → admits c prog = true) ∧
  ∀ (p : ParameterSet) (calls : List EncoderCall) (prog : List Instr), hostProgram? p calls = some prog →
    admits p.block prog = true ∧ ∃ rest, prog = initSequence p.host p.block ++ rest ∧
      ∀ i ∈ rest, (∃ a, i = .cmd a) ∨ ∃ a b, i = .wrat a b

/-- 43_host_sequences.md R155, R156 (95_test_vectors.md E1, E2): the digit's glyph, with the dot exactly where the mask
has the position's bit. -/
def Obligations.DigitsCarryTheDotMask : Prop :=
  ∀ (h : HostConfig) (e : EncoderState) (pos : Byte) (n : Fin 16),
    (e.dotMask.testBit pos.toNat = true → setDigit h e pos n = .wrat pos (h.glyph[n] ||| h.segDp)) ∧
    (e.dotMask.testBit pos.toNat = false → setDigit h e pos n = .wrat pos h.glyph[n])

/-- 43_host_sequences.md R157 (E3): right-aligned `SETDEC` writes the decimal digits of the value, least significant
first, at descending positions, until the value or the positions run out. That an offset out of range runs R157's loop, so
that the sentinel offset writes nothing, is the model's choice (C10, notes/assumptions/25.md). -/
def Obligations.DecimalDigitsDescend : Prop :=
  ∀ (h : HostConfig) (e : EncoderState) (value : Nat) (offset : Byte),
    (offset = sentinel → setDec h e value offset .right = []) ∧
    (offset ≠ sentinel →
      (setDec h e value offset .right).length = min (Nat.digits 10 value).length (offset.toNat + 1) ∧
      ∀ k < (setDec h e value offset .right).length, (setDec h e value offset .right)[k]? =
        some (setDigit h e (BitVec.ofNat 8 (offset.toNat - k)) (value / 10 ^ k % 10)))

/-- 43_host_sequences.md R158 (E5): left-aligned `SETDEC` is the right-aligned one from the offset advanced by the number of
digits beyond one, modulo 256; the value 0 writes nothing; a number with room writes all its digits, each one position
below the one before, and the most significant lands at the original offset. Offsets past the display run as R158 is
written (the model's choice, notes/assumptions/25.md). -/
def Obligations.LeftAlignedLeadsAtTheOffset : Prop :=
  ∀ (h : HostConfig) (e : EncoderState) (value : Nat) (offset : Byte),
    let digits := (Nat.digits 10 value).length
    let out := setDec h e value offset .left
    out = setDec h e value (offset + BitVec.ofNat 8 (digits - 1)) .right ∧
    (value = 0 → out = []) ∧
    (value ≠ 0 → offset.toNat + digits ≤ 255 →
      out.length = digits ∧
      (∀ k < digits, out[k]? =
        some (setDigit h e (BitVec.ofNat 8 (offset.toNat + digits - 1 - k)) (value / 10 ^ k % 10))) ∧
      out.getLast? = some (setDigit h e offset (value / 10 ^ (digits - 1))))

/-- 43_host_sequences.md R159, R160 (E4, E6): a padded write fills `width` positions as far as the offset goes: digits of
the value in its base while the value lasts, then the pad; so value 0 writes only pads. That an offset out of range runs the
loops, so that the sentinel offset writes nothing, is the model's choice (C10, notes/assumptions/25.md). -/
def Obligations.PaddedWritesFillTheWidth : Prop :=
  ∀ (h : HostConfig) (e : EncoderState) (r : Radix) (value width : Nat) (offset pad : Byte),
    let base := match r with | .decimal => 10 | .hexadecimal => 16
    let out := setPadded h e r value offset width pad
    (offset = sentinel → out = []) ∧
    (offset ≠ sentinel → out.length = min width (offset.toNat + 1) ∧
      ∀ k < out.length, out[k]? = some
        (if value / base ^ k ≠ 0 then
          setDigit h e (BitVec.ofNat 8 (offset.toNat - k)) (value / base ^ k % base)
        else setRaw h e (BitVec.ofNat 8 (offset.toNat - k)) pad))

/-- 43_host_sequences.md R161 (E8): the priority order of the character lookup, the skipped character and the space. -/
def Obligations.CharactersAreLookedUpInOrder : Prop :=
  ∀ (h : HostConfig) (e : EncoderState) (pos c : Byte),
    (h.charMap c ≠ 0 → charGlyph h c = h.charMap c) ∧
    (h.charMap c = 0 →
      (97 ≤ c.toNat → c.toNat ≤ 122 → charGlyph h c = glyphAt h (c.toNat - 97 + 10)) ∧
      (65 ≤ c.toNat → c.toNat ≤ 90 → charGlyph h c = glyphAt h (c.toNat - 65 + 10)) ∧
      (48 ≤ c.toNat → c.toNat ≤ 57 → charGlyph h c = glyphAt h (c.toNat - 48)) ∧
      (¬ (97 ≤ c.toNat ∧ c.toNat ≤ 122) → ¬ (65 ≤ c.toNat ∧ c.toNat ≤ 90) → ¬ (48 ≤ c.toNat ∧ c.toNat ≤ 57) →
        charGlyph h c = 0)) ∧
    (charGlyph h c = 0 → c ≠ 0x20 → setChar h e pos c = []) ∧
    (charGlyph h c ≠ 0 ∨ c = 0x20 → setChar h e pos c = [setRaw h e pos (charGlyph h c)])

/-- 43_host_sequences.md R163 (E7): a string of `n ≥ 1` characters on a display of at most `n + 1` digits pauses
`n + 1 - DIGIT_COUNT` times, 250 ms each, and returns at the terminator: the frames it has shown are all the frames there
are. An empty or null input is a no-op. A shorter string is refused (U8; the model's choice, notes/assumptions/17.md). -/
def Obligations.ScrollEndsAtTheTerminator : Prop :=
  ∀ (h : HostConfig) (c : Config) (e : EncoderState), 1 ≤ c.digitCount →
    scroll h c e none = some [] ∧
    ∀ s : List Byte,
      let n := (stringChars s).length
      (n = 0 → scroll h c e (some s) = some []) ∧
      (n ≠ 0 → c.digitCount ≤ n + 1 → ∃ acts, scroll h c e (some s) = some acts ∧
        acts.countP (fun x => x == .wait 250) = n + 1 - c.digitCount ∧
        ∀ count, n + 1 - c.digitCount < count → scrollFrames h c e s count 0 = acts) ∧
      (n ≠ 0 → n + 1 < c.digitCount → scroll h c e (some s) = none)
end

