-- ==== Sys2Proof/Laws/Memory.lean ====
section
/-! SUPPORT. The laws of the display memory: read after write, and the canonical form. -/

namespace Sys2Proof.Machine

theorem memory_read_write_same (m : Memory) (p : Nat) (v : Byte) : (m.write p v).read p = some v := by
  induction m with
  | nil => simp [Memory.write, Memory.read]
  | cons c rest ih =>
    unfold Memory.write
    split
    · simp [Memory.read]
    · split
      · simp [Memory.read]
      · rename_i h1 h2
        have : c.1 ≠ p := fun h => h2 h.symm
        simp [Memory.read, this, ih]

theorem memory_read_write_other (m : Memory) (p q : Nat) (v : Byte) (h : q ≠ p) :
    (m.write p v).read q = m.read q := by
  induction m with
  | nil => simp [Memory.write, Memory.read, Ne.symm h]
  | cons c rest ih =>
    unfold Memory.write
    split
    · simp [Memory.read, Ne.symm h]
    · split
      · rename_i h2
        subst h2
        simp [Memory.read, Ne.symm h]
      · simp [Memory.read, ih]

/-- Where a written list begins: at the address written, or where it began before. -/
theorem memory_write_head (m : Memory) (p : Nat) (v : Byte) :
    ∃ c rest, m.write p v = c :: rest ∧ (c.1 = p ∨ ∃ d tail, m = d :: tail ∧ c.1 = d.1) := by
  cases m with
  | nil => exact ⟨(p, v), [], rfl, .inl rfl⟩
  | cons c rest =>
    unfold Memory.write
    split
    · exact ⟨_, _, rfl, .inl rfl⟩
    · split
      · exact ⟨_, _, rfl, .inl rfl⟩
      · exact ⟨_, _, rfl, .inr ⟨c, rest, rfl, rfl⟩⟩

theorem memory_wf_tail {c : Host.Cell} {rest : Memory} (h : Memory.wf (c :: rest) = true) :
    Memory.wf rest = true := by
  cases rest with
  | nil => rfl
  | cons d tail => simp [Memory.wf] at h; exact h.2

theorem memory_wf_write (m : Memory) (p : Nat) (v : Byte) (h : m.wf = true) : (m.write p v).wf = true := by
  induction m with
  | nil => rfl
  | cons c rest ih =>
    unfold Memory.write
    split
    · rename_i h1
      cases rest with
      | nil => simpa [Memory.wf] using h1
      | cons d tail => simp [Memory.wf] at h ⊢; exact ⟨h1, h⟩
    · split
      · rename_i h2
        subst h2
        cases rest with
        | nil => rfl
        | cons d tail => simpa [Memory.wf] using h
      · rename_i h1 h2
        obtain ⟨d, tail, he, hd⟩ := memory_write_head rest p v
        have hw := ih (memory_wf_tail h)
        rw [he] at hw ⊢
        simp only [Memory.wf, Bool.and_eq_true, decide_eq_true_eq]
        refine ⟨?_, hw⟩
        rcases hd with hd | ⟨d', tail', hr, hd⟩
        · omega
        · subst hr
          simp [Memory.wf] at h
          omega

end Sys2Proof.Machine
end

