-- ==== Sys2Proof/Laws/State.lean ====
section
/-! SUPPORT. One lemma per field per update of the state. -/

namespace Sys2Proof.Machine

@[simp] theorem lines_scl (s : State) : s.lines.scl = s.scl := rfl
@[simp] theorem lines_sda (s : State) : s.lines.sda = s.sda := rfl
@[simp] theorem lines_sclDir (s : State) : s.lines.sclDir = s.sclDir := rfl
@[simp] theorem lines_sdaDir (s : State) : s.lines.sdaDir = s.sdaDir := rfl

@[simp] theorem withLines_lines (s : State) (l : Lines) : (s.withLines l).lines = l := rfl
@[simp] theorem withLines_busy (s : State) (l : Lines) : (s.withLines l).busy = s.busy := rfl
@[simp] theorem withLines_op (s : State) (l : Lines) : (s.withLines l).op = s.op := rfl
@[simp] theorem withLines_a (s : State) (l : Lines) : (s.withLines l).a = s.a := rfl
@[simp] theorem withLines_b (s : State) (l : Lines) : (s.withLines l).b = s.b := rfl
@[simp] theorem withLines_phase (s : State) (l : Lines) : (s.withLines l).phase = s.phase := rfl
@[simp] theorem withLines_trace (s : State) (l : Lines) : (s.withLines l).trace = s.trace := rfl
@[simp] theorem withLines_host (s : State) (l : Lines) : (s.withLines l).host = s.host := rfl
@[simp] theorem withLines_cfg (s : State) (l : Lines) : (s.withLines l).cfg = s.cfg := rfl
@[simp] theorem withLines_freeIdx (s : State) (l : Lines) : (s.withLines l).freeIdx = s.freeIdx := rfl

@[simp] theorem execMicro_lines (m : MicroOp) (s : State) : (execMicro m s).lines = m.onLines s.lines := rfl
@[simp] theorem execMicro_busy (m : MicroOp) (s : State) : (execMicro m s).busy = s.busy := rfl
@[simp] theorem execMicro_op (m : MicroOp) (s : State) : (execMicro m s).op = s.op := rfl
@[simp] theorem execMicro_a (m : MicroOp) (s : State) : (execMicro m s).a = s.a := rfl
@[simp] theorem execMicro_b (m : MicroOp) (s : State) : (execMicro m s).b = s.b := rfl
@[simp] theorem execMicro_phase (m : MicroOp) (s : State) : (execMicro m s).phase = s.phase + 1 := rfl
@[simp] theorem execMicro_trace (m : MicroOp) (s : State) : (execMicro m s).trace = s.trace ++ [m.event] := rfl
@[simp] theorem execMicro_host (m : MicroOp) (s : State) : (execMicro m s).host = s.host := rfl
@[simp] theorem execMicro_cfg (m : MicroOp) (s : State) : (execMicro m s).cfg = s.cfg := rfl
@[simp] theorem execMicro_freeIdx (m : MicroOp) (s : State) : (execMicro m s).freeIdx = s.freeIdx := rfl

@[simp] theorem accept_lines (op : BitVec 3) (a b : Byte) (s : State) : (accept op a b s).lines = s.lines := rfl
@[simp] theorem accept_busy (op : BitVec 3) (a b : Byte) (s : State) : (accept op a b s).busy = true := rfl
@[simp] theorem accept_op (op : BitVec 3) (a b : Byte) (s : State) : (accept op a b s).op = op := rfl
@[simp] theorem accept_a (op : BitVec 3) (a b : Byte) (s : State) : (accept op a b s).a = a := rfl
@[simp] theorem accept_b (op : BitVec 3) (a b : Byte) (s : State) : (accept op a b s).b = b := rfl
@[simp] theorem accept_phase (op : BitVec 3) (a b : Byte) (s : State) : (accept op a b s).phase = 0 := rfl
@[simp] theorem accept_trace (op : BitVec 3) (a b : Byte) (s : State) : (accept op a b s).trace = s.trace := rfl
@[simp] theorem accept_host (op : BitVec 3) (a b : Byte) (s : State) : (accept op a b s).host = s.host := rfl
@[simp] theorem accept_cfg (op : BitVec 3) (a b : Byte) (s : State) : (accept op a b s).cfg = s.cfg := rfl
@[simp] theorem accept_freeIdx (op : BitVec 3) (a b : Byte) (s : State) : (accept op a b s).freeIdx = s.freeIdx := rfl

@[simp] theorem complete_lines (s : State) : (complete s).lines = s.lines := rfl
@[simp] theorem complete_busy (s : State) : (complete s).busy = false := rfl
@[simp] theorem complete_phase (s : State) : (complete s).phase = s.phase := rfl
@[simp] theorem complete_trace (s : State) : (complete s).trace = s.trace := rfl
@[simp] theorem complete_host (s : State) : (complete s).host = s.host := rfl
@[simp] theorem complete_cfg (s : State) : (complete s).cfg = s.cfg := rfl
@[simp] theorem complete_freeIdx (s : State) : (complete s).freeIdx = s.freeIdx + 1 := rfl

@[simp] theorem resetBlock_lines (s : State) : (resetBlock s).lines = Lines.reset := rfl
@[simp] theorem resetBlock_busy (s : State) : (resetBlock s).busy = false := rfl
@[simp] theorem resetBlock_phase (s : State) : (resetBlock s).phase = 0 := rfl
@[simp] theorem resetBlock_trace (s : State) : (resetBlock s).trace = [] := rfl
@[simp] theorem resetBlock_host (s : State) : (resetBlock s).host = s.host := rfl
@[simp] theorem resetBlock_cfg (s : State) : (resetBlock s).cfg = s.cfg := rfl
@[simp] theorem resetBlock_freeIdx (s : State) : (resetBlock s).freeIdx = s.freeIdx + 1 := rfl

end Sys2Proof.Machine
end

