-- ==== Sys2Proof/Laws/Ops.lean ====
section
/-! SUPPORT. What the shared operations do, said once: a list of execute steps, and one whole operation. -/

namespace Sys2Proof.Machine

@[simp] theorem runMicros_nil (s : State) : runMicros [] s = s := rfl

@[simp] theorem runMicros_cons (m : MicroOp) (ms : List MicroOp) (s : State) :
    runMicros (m :: ms) s = runMicros ms (execMicro m s) := rfl

theorem runMicros_append (ms ns : List MicroOp) (s : State) :
    runMicros (ms ++ ns) s = runMicros ns (runMicros ms s) := by
  simp [runMicros]

@[simp] theorem linesAfter_nil (l : Lines) : linesAfter [] l = l := rfl

@[simp] theorem linesAfter_cons (m : MicroOp) (ms : List MicroOp) (l : Lines) :
    linesAfter (m :: ms) l = linesAfter ms (m.onLines l) := rfl

theorem linesAfter_append (ms ns : List MicroOp) (l : Lines) :
    linesAfter (ms ++ ns) l = linesAfter ns (linesAfter ms l) := by
  simp [linesAfter]

@[simp] theorem runMicros_lines (ms : List MicroOp) (s : State) :
    (runMicros ms s).lines = linesAfter ms s.lines := by
  induction ms generalizing s with
  | nil => rfl
  | cons m ms ih => simp [ih]

@[simp] theorem runMicros_trace (ms : List MicroOp) (s : State) :
    (runMicros ms s).trace = s.trace ++ ms.map MicroOp.event := by
  induction ms generalizing s with
  | nil => simp
  | cons m ms ih => simp [ih]

@[simp] theorem runMicros_phase (ms : List MicroOp) (s : State) :
    (runMicros ms s).phase = s.phase + BitVec.ofNat 8 ms.length := by
  induction ms generalizing s with
  | nil => simp
  | cons m ms ih =>
    simp only [runMicros_cons, ih, execMicro_phase, List.length_cons, BitVec.ofNat_add]
    rw [BitVec.add_assoc, BitVec.add_comm (1 : BitVec 8)]
    rfl

@[simp] theorem runMicros_busy (ms : List MicroOp) (s : State) : (runMicros ms s).busy = s.busy := by
  induction ms generalizing s with
  | nil => rfl
  | cons m ms ih => simp [ih]

@[simp] theorem runMicros_op (ms : List MicroOp) (s : State) : (runMicros ms s).op = s.op := by
  induction ms generalizing s with
  | nil => rfl
  | cons m ms ih => simp [ih]

@[simp] theorem runMicros_a (ms : List MicroOp) (s : State) : (runMicros ms s).a = s.a := by
  induction ms generalizing s with
  | nil => rfl
  | cons m ms ih => simp [ih]

@[simp] theorem runMicros_b (ms : List MicroOp) (s : State) : (runMicros ms s).b = s.b := by
  induction ms generalizing s with
  | nil => rfl
  | cons m ms ih => simp [ih]

@[simp] theorem runMicros_host (ms : List MicroOp) (s : State) : (runMicros ms s).host = s.host := by
  induction ms generalizing s with
  | nil => rfl
  | cons m ms ih => simp [ih]

@[simp] theorem runMicros_cfg (ms : List MicroOp) (s : State) : (runMicros ms s).cfg = s.cfg := by
  induction ms generalizing s with
  | nil => rfl
  | cons m ms ih => simp [ih]

@[simp] theorem runMicros_freeIdx (ms : List MicroOp) (s : State) : (runMicros ms s).freeIdx = s.freeIdx := by
  induction ms generalizing s with
  | nil => rfl
  | cons m ms ih => simp [ih]

/-- An operation presented to an idle block is accepted, executed and completed. -/
theorem operate_of_idle (op : BitVec 3) (a b : Byte) (ms : List MicroOp) (s : State) (h : s.busy = false) :
    operate op a b ms s = .next (complete (runMicros ms (accept op a b s))) := by
  simp [operate, State.accepts, h]

/-- An operation presented to a busy block has no effect. -/
theorem operate_of_busy (op : BitVec 3) (a b : Byte) (ms : List MicroOp) (s : State) (h : s.busy = true) :
    operate op a b ms s = .next s := by
  simp [operate, State.accepts, h]

end Sys2Proof.Machine
end

