-- ==== Sys2Proof/Laws/MicroLists.lean ====
section
/-! SUPPORT. Where each micro-operation list leaves the lines, how long it can be, and what `exec` does with it. -/

namespace Sys2Proof.Machine

/-- A bit cell ends with the clock high and data at its bit (30_encoding.md R76). -/
theorem linesAfter_cell (v : Level) (l : Lines) : linesAfter (cell v) l = { l with scl := true, sda := v } := by
  cases v <;> rfl

theorem linesAfter_byteList (x : Byte) (l : Lines) :
    linesAfter (byteList x) l = { l with scl := true, sda := false } := by
  simp only [byteList, linesAfter_append, linesAfter_cell]

theorem linesAfter_setupList (l : Lines) : linesAfter setupList l = Lines.driven true true := rfl

theorem linesAfter_startList (l : Lines) : linesAfter startList l = { l with scl := true, sda := false } := rfl

theorem linesAfter_stopList (l : Lines) : linesAfter stopList l = { l with scl := true, sda := true } := rfl

theorem linesAfter_cmdList (a : Byte) (l : Lines) :
    linesAfter (cmdList a) l = { l with scl := true, sda := true } := by
  simp only [cmdList, sendbList, linesAfter_append, linesAfter_byteList, linesAfter_startList, linesAfter_stopList]

theorem linesAfter_wratList (c : Config) (a b : Byte) (l : Lines) :
    linesAfter (wratList c a b) l = { l with scl := true, sda := true } := by
  simp only [wratList, sendbList, linesAfter_append, linesAfter_byteList, linesAfter_startList, linesAfter_stopList,
    linesAfter_cmdList]
  rfl

/-- Nine cells of five (41_byte_transfer.md R121). -/
theorem byteList_length (x : Byte) : (byteList x).length = 45 := rfl

/-- No list has more elements than `PHASE` can count (10_state.md R27). -/
theorem microOps_length_le (c : Config) (i : Instr) : (microOps c i).length ≤ 164 := by
  cases i <;>
    simp [microOps, setupList, startList, stopList, sendbList, cmdList, wratList, reservedList, byteList_length]

@[simp] theorem unmarked_length (ms : List MicroOp) : (unmarked ms).length = ms.length := by simp [unmarked]

theorem byteMarks_length : byteMarks.length = 45 := rfl

/-- An acknowledge-slot mark for every element of an operation's list (41_byte_transfer.md R122). -/
theorem slotMarks_length (c : Config) (i : Instr) : (slotMarks i).length = (microOps c i).length := by
  cases i <;>
    simp only [slotMarks, microOps, cmdList, wratList, sendbList, List.length_append, unmarked_length, byteMarks_length,
      byteList_length]

/-- The sequencer's list for a command word is the list of the operation it decodes to (30_encoding.md R75, R78). -/
theorem wordList_eq (c : Config) (w : CommandWord) : wordList c w = microOps c (decode w) := by
  unfold wordList seq decode
  have h := (opField w).isLt
  generalize (opField w).toNat = n at h ⊢
  interval_cases n <;> rfl

/-- What an operation does in an idle state. -/
theorem exec_of_idle (i : Instr) (s : State) (h : s.busy = false) :
    ∃ t, exec i s = .next t ∧
      s.RanTo (microOps s.cfg i) (linesAfter (microOps s.cfg i) s.lines) t ∧
      t.phase = BitVec.ofNat 8 (microOps s.cfg i).length ∧ t.freeIdx = s.freeIdx + 1 := by
  cases i <;>
    exact ⟨_, operate_of_idle _ _ _ _ _ h, ⟨by simp [microOps], rfl, by simp [microOps], by simp, by simp⟩,
      by simp [microOps], by simp⟩

end Sys2Proof.Machine
end

