-- ==== Sys2Proof/Laws/PerInstr.lean ====
section
/-! SUPPORT. Per-instruction laws, one lemma per constructor of Instr. -/

/-- The encoded word is selected by the opcode table's row of that mnemonic (30_encoding.md R72). -/
def Sys2Proof.Laws.EncodesToItsRow.Statement (i : Sys2Proof.Instr) : Prop :=
  ∃ r ∈ Sys2Proof.opcodeTable, r.mnemonic = i.mnemonic ∧ r.selects (Sys2Proof.encode i) = true

namespace Sys2Proof.Laws.EncodesToItsRow

theorem setup : Statement .setup := ⟨⟨"SETUP", 0x70000, 0x00000⟩, by simp [opcodeTable], rfl, by decide⟩

theorem start : Statement .start := ⟨⟨"START", 0x70000, 0x10000⟩, by simp [opcodeTable], rfl, by decide⟩

theorem stop : Statement .stop := ⟨⟨"STOP", 0x70000, 0x20000⟩, by simp [opcodeTable], rfl, by decide⟩

theorem sendb (a : Byte) : Statement (.sendb a) := by
  refine ⟨⟨"SENDB", 0x70000, 0x30000⟩, by simp [opcodeTable], rfl, ?_⟩
  revert a
  decide

theorem cmd (a : Byte) : Statement (.cmd a) := by
  refine ⟨⟨"CMD", 0x70000, 0x40000⟩, by simp [opcodeTable], rfl, ?_⟩
  revert a
  decide

/-- The mask keeps the three opcode bits whatever stands in the operand fields. -/
theorem mask_of_fields (op : BitVec 3) (a b : Byte) :
    (op ++ a ++ b : CommandWord) &&& 0x70000 = op ++ (0 : Byte) ++ (0 : Byte) := by
  ext i hi
  have h : ∀ j < 19, (0x70000 : CommandWord).getLsbD j = decide (16 ≤ j) := by decide
  simp only [BitVec.getElem_and, BitVec.getElem_append]
  have hj := h i hi
  rw [BitVec.getLsbD_eq_getElem hi] at hj
  rw [hj]
  by_cases h8 : i < 8
  · simp [h8]; omega
  · by_cases h16 : i < 16
    · have : i - 8 < 8 := by omega
      simp [h8, this]; omega
    · have : ¬ i - 8 < 8 := by omega
      simp [h8, this]; omega

theorem wrat (a b : Byte) : Statement (.wrat a b) := by
  refine ⟨⟨"WRAT", 0x70000, 0x50000⟩, by simp [opcodeTable], rfl, ?_⟩
  simp only [OpcodeRow.selects, encode, Instr.opcode, Instr.aOperand, Instr.bOperand, mask_of_fields]
  decide

theorem reserved6 : Statement .reserved6 := ⟨⟨"RESERVED6", 0x70000, 0x60000⟩, by simp [opcodeTable], rfl, by decide⟩

theorem reserved7 : Statement .reserved7 := ⟨⟨"RESERVED7", 0x70000, 0x70000⟩, by simp [opcodeTable], rfl, by decide⟩

end Sys2Proof.Laws.EncodesToItsRow
end

