-- ==== Sys2Proof/Laws/Slave.lean ====
section
/-! SUPPORT. The reference slave's display memory stays in canonical form. -/

namespace Sys2Proof.Machine

theorem slave_command_wf (cfg : Config) (c : Byte) (s : Slave) (h : s.disp.wf = true) :
    (s.command cfg c).disp.wf = true := by
  unfold Slave.command
  split
  · rename_i row hr
    have hm : row ∈ commandRows cfg c s := List.mem_of_mem_filter (by rw [hr]; exact List.mem_singleton.mpr rfl)
    simp only [commandRows, List.mem_cons, List.not_mem_nil, or_false] at hm
    rcases hm with rfl | rfl | rfl <;> exact h
  · rfl

theorem slave_data_wf (cfg : Config) (c d : Byte) (s : Slave) (h : s.disp.wf = true) :
    (s.data cfg c d).disp.wf = true := by
  unfold Slave.data
  split
  · exact memory_wf_write _ _ _ h
  · rfl

theorem slave_react_wf (cfg : Config) (s : Slave) (x : FrameItem) (h : s.disp.wf = true) :
    (s.react cfg x).disp.wf = true := by
  unfold Slave.react
  split
  · exact slave_command_wf _ _ _ h
  · exact slave_data_wf _ _ _ _ h
  · rfl
  · rfl
  · exact h
  · rfl

theorem slave_reactAll_wf (cfg : Config) (items : List FrameItem) (s : Slave) (h : s.disp.wf = true) :
    (s.reactAll cfg items).disp.wf = true := by
  induction items generalizing s with
  | nil => exact h
  | cons x rest ih => exact ih _ (slave_react_wf cfg s x h)

/-- The display memory read off any state is in canonical form. -/
theorem slave_disp_wf (s : State) : s.slave.disp.wf = true := slave_reactAll_wf _ _ _ rfl

end Sys2Proof.Machine
end

