-- ==== Sys2Proof/Laws/Step.lean ====
section
/-! SUPPORT. What a tick and a step can do, said once. -/

namespace Sys2Proof.Machine

/-- The five things a tick can do. -/
theorem tick_cases (p : PortInput) (s : State) :
    (p.rst = true ∧ tick p s = resetBlock s) ∨
    (p.rst = false ∧ s.busy = true ∧ ∃ m, s.inFlight[s.phase.toNat]? = some m ∧ tick p s = execMicro m s) ∨
    (p.rst = false ∧ s.busy = true ∧ s.phase.toNat = s.inFlight.length ∧ tick p s = complete s) ∨
    (p.rst = false ∧ s.busy = true ∧ s.inFlight.length < s.phase.toNat ∧ tick p s = s) ∨
    (p.rst = false ∧ s.busy = false ∧ p.opValid = true ∧ tick p s = acceptWord p.opWord s) ∨
    (p.rst = false ∧ s.busy = false ∧ p.opValid = false ∧ tick p s = s) := by
  unfold tick
  rcases hr : p.rst with _ | _
  · rcases hb : s.busy with _ | _
    · rcases hv : p.opValid with _ | _ <;> simp
    · rcases hm : s.inFlight[s.phase.toNat]? with _ | m
      · have hle := List.getElem?_eq_none_iff.mp hm
        by_cases he : s.phase.toNat = s.inFlight.length
        · simp [he]
        · have : s.inFlight.length < s.phase.toNat := by omega
          simp [he, this]
      · simp
  · simp

/-- The four things a step can do. -/
theorem step_cases (s t : State) (h : step s = .next t) :
    (∃ rest, s.host = .reset :: rest ∧ t = resetBlock { s with host := rest }) ∨
    (s.busy = true ∧ (∀ rest, s.host ≠ .reset :: rest) ∧ t = drain s) ∨
    (∃ w rest, s.busy = false ∧ s.host = .present w :: rest ∧ exec (decode w) { s with host := rest } = .next t) ∨
    (s.busy = false ∧ s.host = [] ∧ t = s) := by
  unfold step at h
  split at h
  · rename_i rest hh
    exact .inl ⟨rest, hh, by simpa using h.symm⟩
  · rename_i w rest hh
    split at h
    · rename_i hb
      exact .inr (.inl ⟨hb, by simp [hh], by simpa using h.symm⟩)
    · rename_i hb
      exact .inr (.inr (.inl ⟨w, rest, by simpa using hb, hh, h⟩))
  · rename_i hh
    split at h
    · rename_i hb
      exact .inr (.inl ⟨hb, by simp [hh], by simpa using h.symm⟩)
    · rename_i hb
      exact .inr (.inr (.inr ⟨by simpa using hb, hh, by simpa using h.symm⟩))

end Sys2Proof.Machine
end

