-- ==== Sys2Proof/Tests/Slice0.lean ====
section
/-! SUPPORT. The model's own tests. Expected values are those of spec/95_test_vectors.md (named V<n>, E<n>) or written out
by hand from the rule named; and one witness for each statement that has hypotheses. -/

namespace Sys2Proof.Tests

open Sys2Proof.Machine

/-! ### Helpers -/

/-- A field of the next state, if there is one. -/
def got {α : Type} (o : Host.Outcome State Fault Refusal) (f : State → α) : Option α :=
  match o with
  | .next s => some (f s)
  | .fault _ => none
  | .refused _ => none

/-- Idle, both lines driven, at these levels, with an empty trace. -/
def standing (scl sda : Level) : State :=
  { State.reset with scl := scl, sda := sda, sclDir := .output, sdaDir := .output }

/-- Idle between frames: reset, then `SETUP`. -/
def up : State :=
  { State.reset with sclDir := .output, sdaDir := .output, trace := setupList.map MicroOp.event, phase := 4 }

/-- In flight: `START` accepted on an idle bus, `STOP` presented meanwhile. -/
def flying : State := { acceptWord 0x10000 up with host := [.present 0x20000] }

/-- The micro-operations an operation appends, as events. -/
def events (ms : List MicroOp) : List Event := ms.map MicroOp.event

/-- A host configuration for the encoder's tests: `GLYPH[n] = 0x10 + n`, no mapped character, `SEG_DP = 0x80`. -/
def hc : HostConfig where
  defaultBrightness := 2
  segDp := 0x80
  valueBits := 16
  glyph := Vector.ofFn fun i => BitVec.ofNat 8 (16 + i.val)
  charMap := fun _ => 0

/-! ### Well-formedness: an ill-formed term for each check -/

theorem test_refuses_no_digits : { Config.usual with digitCount := 0 }.wf = false := by decide

theorem test_refuses_position_over_a_byte :
    { Config.usual with digitCount := 257, cmdAddr := 0 }.addressLeavesPositionsClear = false := by decide +kernel

theorem test_refuses_address_command_on_position_bits : { Config.usual with cmdAddr := 0xC1 }.wf = false := by decide

theorem test_refuses_display_command_on_level_bits : { Config.usual with cmdDisplayOn := 0x8C }.wf = false := by decide

theorem test_refuses_no_settle_cycle : { Config.usual with settleCycles := 0 }.wf = false := by decide

theorem test_refuses_two_decimal_points : { hc with segDp := 0x81 }.wf = false := by decide

theorem test_refuses_position_out_of_range : (Instr.wrat 4 0).wf Config.usual = false := by decide

theorem test_refuses_reserved_opcode : Instr.reserved6.wf Config.usual = false := by decide

theorem test_usual_parameters_pass : Config.usual.wf = true ∧ hc.wf = true := by decide

theorem test_boot_refuses_bad_parameters :
    (boot? ⟨{ Config.usual with cmdAddr := 0xC1 }, hc⟩).isNone ∧ (boot? ⟨Config.usual, { hc with segDp := 0x81 }⟩).isNone ∧
    hostProgram? ⟨Config.usual, { hc with segDp := 0x81 }⟩ [.init] = none ∧ (boot? ⟨Config.usual, hc⟩).isSome := by decide

/-! ### Decoding: words written out from 30_encoding.md R71 (V14) -/

theorem test_decode_setup : decode 0b000_00000000_00000000 = .setup := by decide
theorem test_decode_start : decode 0b001_00000000_00000000 = .start := by decide
theorem test_decode_stop : decode 0b010_00000000_00000000 = .stop := by decide
theorem test_decode_sendb : decode 0b011_01000100_00000000 = .sendb 0x44 := by decide
theorem test_decode_cmd : decode 0b100_10001111_00000000 = .cmd 0x8F := by decide
theorem test_decode_wrat : decode 0b101_00000010_01011011 = .wrat 2 0x5B := by decide
theorem test_decode_reserved6 : decode 0b110_00000000_00000000 = .reserved6 := by decide
theorem test_decode_reserved7 : decode 0b111_10101011_11001101 = .reserved7 := by decide

theorem test_decode_ignores_unused_fields : decode 0x10FFF = .start ∧ decode 0x34455 = .sendb 0x44 := by decide

theorem test_encode_words : encode .stop = 0x20000 ∧ encode (.sendb 0x44) = 0x34400 ∧
    encode (.cmd 0x8F) = 0x48F00 ∧ encode (.wrat 2 0x5B) = 0x5025B := by decide

theorem test_decode_rejects_a_wide_number : decodeNat 0x80000 = .rejected .widerThanThePort ∧
    decodeTableWord 24 0x80000 = none := by decide

/-- 30_encoding.md R84's examples. -/
theorem test_assemble : assemble "SENDB" [0x44] = some (.sendb 0x44) ∧
    assemble "WRAT" [2, 0x5B] = some (.wrat 2 0x5B) ∧ assemble "SETUP" [] = some .setup ∧
    assemble "SETUP" [1] = none := by decide

theorem test_table_rows_do_not_overlap :
    opcodeTable.Pairwise fun r q => r.mask &&& q.mask &&& (r.pattern ^^^ q.pattern) ≠ 0 := by decide

/-! ### The operations -/

/-- V1. -/
theorem test_setup_from_reset :
    got (execSetup State.reset) (fun t => (t.lines, t.trace, symbols t.trace)) =
      some (⟨true, true, .output, .output⟩,
        [.dir .scl .output, .dir .sda .output, .drive .scl true, .drive .sda true], []) := by decide

/-- V2. -/
theorem test_setup_in_frame_is_a_stop :
    symbolsFrom (standing true false).lines (events setupList) = [.stop] := by decide

/-- V3. -/
theorem test_start_from_idle :
    got (execStart (standing true true)) (fun t => (t.scl, t.sda, t.trace)) =
      some (true, false, [.drive .scl true, .settle, .drive .sda true, .settle, .drive .sda false, .settle]) := by
  decide

/-- V4. -/
theorem test_repeated_start :
    symbolsFrom (standing true false).lines (events startList) = [.stop, .start] := by decide

/-- V5. -/
theorem test_stop_levels :
    (lineStatesFrom (standing true false).lines (events stopList)).map Lines.own =
      [(false, false), (false, false), (true, false), (true, true)] := by decide

/-- V6. -/
theorem test_stop_outside_a_frame :
    frames (events (setupList ++ stopList)) = [.idleStop] := by decide

/-- V7c: the single 1 of `0x01` is in the first cell. -/
theorem test_sendb_lsb_first :
    got (execSendb 0x01 (standing true false)) (fun t => (t.scl, t.sda, t.trace)) =
      some (true, false, events ([.c0, .d1, .t, .c1, .t] ++
        (List.replicate 8 [MicroOp.c0, .d0, .t, .c1, .t]).flatten)) := by decide

/-- V7e, the bits of `0xA5` and the slot. -/
theorem test_sendb_symbols :
    symbolsFrom (standing true false).lines (events (sendbList 0xA5)) =
      [true, false, true, false, false, true, false, true, false].map Symbol.bit := by decide

/-- V8c. -/
theorem test_cmd_symbols :
    symbolsFrom up.lines (events (cmdList 0x8F)) =
      .start :: [true, true, true, true, false, false, false, true, false, false].map Symbol.bit ++ [.stop] := by
  decide

/-- V8c. -/
theorem test_cmd_frame :
    got (execCmd 0x8F up) (fun t => frames t.trace) = some [sentFrame [0x8F]] := by decide +kernel

/-- V9, with the usual parameter values it assumes. -/
theorem test_wrat_frames :
    got (execWrat 2 0x5B { up with cfg := Config.usual }) (fun t => (t.lines, frames t.trace)) =
      some (Lines.driven true true, [sentFrame [0x44], sentFrame [0xC2, 0x5B]]) := by decide +kernel

/-- V12: out of range positions are sent unmasked. -/
theorem test_wrat_address_bytes : [0, 3, 0x40, 0x10, 0xFF].map (addressByte Config.usual) =
    [0xC0, 0xC3, 0xC0, 0xD0, 0xFF] := by decide

/-- 30_encoding.md R74. -/
theorem test_reserved6_is_empty :
    got (execReserved6 up) (fun t => (t.lines, t.busy, t.trace)) = some (up.lines, false, up.trace) := by decide

theorem test_reserved7_is_empty :
    got (execReserved7 up) (fun t => (t.lines, t.busy, t.trace)) = some (up.lines, false, up.trace) := by decide

/-! ### Steps and ticks -/

theorem test_first_step_runs_the_placed_word :
    got (step (State.reset.withFetchWord 24 0x34400)) (fun t => t.trace) = some (events (sendbList 0x44)) := by
  decide

theorem test_idle_step_changes_nothing : got (step State.reset) id = some State.reset := by decide

/-- V15, the accept row. -/
theorem test_tick_accepts :
    (let t := tick (.holding 0x10000) up; (t.busy, t.phase, t.op, t.trace)) = (true, 0, 1, up.trace) := by decide

/-- V15, the first execute row. -/
theorem test_tick_executes :
    (let t := tick .quiet flying; (t.busy, t.phase, t.trace)) =
      (true, 1, up.trace ++ [.drive .scl true]) := by decide

/-- V16: a word presented while busy has no effect. -/
theorem test_tick_ignores_a_word_while_busy : tick (.holding 0x20000) flying = tick .quiet flying := by decide

/-- V15, the complete row. -/
theorem test_tick_completes :
    (let t := tick .quiet { flying with phase := 6 }; (t.busy, t.phase, t.trace)) = (false, 6, up.trace) := by decide

/-- 10_state.md R37: reset in mid-operation. -/
theorem test_tick_resets :
    (let t := tick { PortInput.quiet with rst := true } flying; (t.lines, t.busy, t.phase, t.trace)) =
      (Lines.reset, false, 0, []) := by decide

/-! ### Host sequences (V19, E6, E7) -/

/-- `WRAT` of a digit, with the test's glyphs and an empty dot mask. -/
def digit (pos : Byte) (n : Nat) : Instr := .wrat pos (BitVec.ofNat 8 (16 + n))

/-- V19a. -/
theorem test_setdec_truncates : setDec hc .init 12345 3 .right =
    [digit 3 5, digit 2 4, digit 1 3, digit 0 2] := by decide +kernel

/-- V19b, V19c. -/
theorem test_setdec_zero_and_left :
    setDec hc .init 0 3 .right = [] ∧ setDec hc .init 9 0 .left = [digit 0 9] := by decide +kernel

/-- E5. -/
theorem test_setdec_left : setDec hc .init 234 0 .left = [digit 2 4, digit 1 3, digit 0 2] := by decide +kernel

/-- V19d, V19e. -/
theorem test_setdecpad : setPadded hc .init .decimal 1234 3 2 0x55 = [digit 3 4, digit 2 3] ∧
    setPadded hc .init .decimal 5 1 4 0x55 = [digit 1 5, .wrat 0 0x55] := by decide +kernel

/-- E6, V19h. -/
theorem test_sethexpad :
    setPadded hc .init .hexadecimal 0xAB 3 4 0x55 = [digit 3 11, digit 2 10, .wrat 1 0x55, .wrat 0 0x55] ∧
    setPadded hc .init .hexadecimal 0x1F0 3 4 0x55 = [digit 3 0, digit 2 15, digit 1 1, .wrat 0 0x55] := by
  decide +kernel

/-- V19i, V19j. -/
theorem test_setraw_dot : setRaw hc ⟨0b0010⟩ 1 0x06 = .wrat 1 0x86 ∧ setRaw hc ⟨0b0010⟩ 0 0x06 = .wrat 0 0x06 := by
  decide

/-- V19k. -/
theorem test_bright_masks : bright Config.usual 9 = .cmd 0x89 := by decide

/-- V19l, V19m: an unmapped character is skipped, the space is not. -/
theorem test_characters : setStr hc .init 1 [97, 63, 98] = [digit 1 10, digit 3 11] ∧
    setChar hc .init 2 0x20 = [.wrat 2 0] := by decide +kernel

/-- E7 and V19n. -/
theorem test_scroll : scroll hc { Config.usual with digitCount := 2 } .init (some [65, 66]) =
      some [.issue (digit 0 10), .issue (digit 1 11), .wait 250, .issue (digit 0 11)] ∧
    scroll hc Config.usual .init (some []) = some [] ∧ scroll hc Config.usual .init (some [65, 66]) = none := by
  decide +kernel

/-- R164, R219, C10: `INIT` missing, `INIT` twice, the sentinel and an offset past the display are refused. -/
theorem test_host_program_refuses :
    [[], [.clear], [.init, .init], [.init, .setDec 0 255 .right], [.init, .setDec 12 3 .left],
      [.init, .setStr 3 [65, 66]]].map (hostProgram? ⟨Config.usual, hc⟩) = List.replicate 6 none ∧
    hostProgram? ⟨Config.usual, hc⟩ [.init, .setDec 7 3 .left] =
      some (initSequence hc Config.usual ++ [digit 3 7]) := by decide +kernel

/-- C10: the sentinel is no offset on a display of 256 digits either, where 255 is a position. -/
theorem test_sentinel_on_a_full_display :
    let c := { Config.usual with digitCount := 256, cmdAddr := 0 }
    (EncoderCall.setDec 7 255 .right).offsetFits c = false ∧ (EncoderCall.setDec 12 254 .left).offsetFits c = false ∧
    (EncoderCall.setDec 7 254 .left).offsetFits c = true ∧ (EncoderCall.setRaw 255 0).offsetFits c = true := by
  decide +kernel

/-- 95_test_vectors.md P1, P4: the boot is admitted, a double `START` is refused. -/
theorem test_contract : admits Config.usual (initSequence hc Config.usual) = true ∧
    judgeAll Config.usual .fresh [.setup, .start, .start] = .refuse .outOfFramingOrder ∧
    judgeAll Config.usual .fresh [.start] = .refuse .beforeSetup ∧
    judgeAll Config.usual .fresh [.setup, .wrat 4 0] = .refuse .positionOutOfRange ∧
    judgeAll Config.usual .fresh [.setup, .reserved7] = .refuse .reservedOpcode := by decide +kernel

/-! ### The display memory and the reference slave -/

theorem test_memory_write_is_canonical :
    Memory.write [(1, 0x11), (3, 0x33)] 2 0x22 = [(1, 0x11), (2, 0x22), (3, 0x33)] ∧
    Memory.write [(1, 0x11), (3, 0x33)] 3 0x44 = [(1, 0x11), (3, 0x44)] := by decide

/-- 95_test_vectors.md P2, P3: what the frames say to the reference slave. -/
theorem test_slave_frames :
    let s := Slave.reactAll Config.usual .unknown [sentFrame [0x8F], sentFrame [0x44], sentFrame [0xC1, 0x06]]
    s.level = some 7 ∧ s.on = some true ∧ s.shows 1 = some 0x06 ∧ s.shows 0 = none := by decide

/-- 20_memory.md R62: a data frame lands in either mode, and while the mode is unknown. -/
theorem test_slave_data_in_any_mode :
    (Slave.reactAll Config.usual .unknown [sentFrame [0xC1, 0x06]]).shows 1 = some 0x06 ∧
    (Slave.reactAll Config.usual .unknown [sentFrame [0x40], sentFrame [0xC1, 0x06]]).shows 1 = some 0x06 := by decide

/-- 40_line_primitives.md R104, log entry 24: a `START` inside a frame closes it by a `P`. -/
theorem test_start_closes_a_frame :
    frames (events (setupList ++ startList ++ sendbList 0x44 ++ startList)) =
      [sentFrame [0x44], .frame ⟨[], .inProgress⟩] := by decide +kernel

/-- An unspecified frame leaves nothing known. -/
theorem test_slave_empty_frame : Slave.reactAll Config.usual .unknown [sentFrame [0x8F], sentFrame []] = .unknown := by
  decide

/-! ### Witnesses: states and operands that meet a statement's hypotheses -/

/-- OpcodeSelectsTheOperation: a word for each opcode. -/
theorem witness_opcode_fields : opField 0x00000 = 0 ∧ opField 0x10FFF = 1 ∧ opField 0x20000 = 2 ∧ opField 0x3FF00 = 3 ∧
    opField 0x40000 = 4 ∧ opField 0x5FFFF = 5 ∧ opField 0x60000 = 6 ∧ opField 0x7FFFF = 7 := by decide

/-- UnusedFieldsAreIgnored. -/
theorem witness_unused_fields : opField 0x10FFF = opField 0x10000 ∧ opField 0x10FFF = 1 ∧
    opField 0x34455 = opField 0x34400 ∧ opField 0x34455 = 3 ∧ aField 0x34455 = aField 0x34400 ∧
    opField 0x40000 = 4 ∧ opField 0x5FFFF = 5 := by decide

/-- ParameterSetsAreChecked: a set that passes, one that fails by its block, one by its host. -/
theorem witness_parameter_sets : (⟨Config.usual, hc⟩ : ParameterSet).wf = true ∧
    (⟨{ Config.usual with digitCount := 0 }, hc⟩ : ParameterSet).wf = false ∧
    (⟨Config.usual, { hc with segDp := 0 }⟩ : ParameterSet).wf = false := by decide

/-- AddressByteIsOrAndSum, at both ends of the range. -/
theorem witness_legal_positions : Config.usual.wf = true ∧ (0 : Byte).toNat < Config.usual.digitCount ∧
    (3 : Byte).toNat < Config.usual.digitCount := by decide

/-- SetupRuns, StartRuns, StopRuns, SendbRuns, CmdRuns, WratRuns, ReservedOpcodesDoNothing, IdleLatchesAreNeverRead. -/
theorem witness_idle : State.reset.busy = false ∧ (standing true false).busy = false := by decide

/-- BusyBlockAcceptsNothing. -/
theorem witness_busy_with_word : flying.busy = true ∧ flying.host = [.present 0x20000] ∧
    ∃ t, step flying = .next t := ⟨rfl, rfl, _, rfl⟩

/-- OnlySetupWritesDirections, StepOnlyExtendsTheTrace. -/
theorem witness_step_without_reset : (∀ rest, flying.host ≠ .reset :: rest) ∧ (∃ t, step flying = .next t) ∧
    (∃ t, exec .setup State.reset = .next t) ∧ ∃ t, exec .start State.reset = .next t := by
  refine ⟨fun rest h => ?_, ⟨_, rfl⟩, ⟨_, rfl⟩, ⟨_, rfl⟩⟩
  have : flying.host = [.present 0x20000] := rfl
  rw [this] at h
  cases h

/-- RepeatingOnlyGrowsTheTrace. -/
theorem witness_repeated_operation : ∃ t u, up.busy = false ∧ exec .start up = .next t ∧ exec .start t = .next u :=
  ⟨_, _, rfl, rfl, rfl⟩

/-- AcceptLatchesTheCommandWord: an idle state with a word, and a busy state. -/
theorem witness_accept : (PortInput.holding 0x10000).rst = false ∧ (PortInput.holding 0x10000).opValid = true ∧
    up.busy = false ∧ flying.busy = true := by decide

/-- ExecutePerformsOneMicroOperation, at the last element too. -/
theorem witness_execute : flying.busy = true ∧ flying.phase.toNat < flying.inFlight.length ∧
    ({ flying with phase := 5 } : State).phase.toNat < ({ flying with phase := 5 } : State).inFlight.length := by decide

/-- CompleteClearsBusy. -/
theorem witness_complete : PortInput.quiet.rst = false ∧ flying.busy = true ∧
    ({ flying with phase := 6 } : State).phase.toNat = ({ flying with phase := 6 } : State).inFlight.length := by decide

/-- LinesChangeOnlyByTheirMicroOperations: each element does change somewhere. -/
theorem witness_lines_change :
    (tick .quiet (acceptWord 0x20000 up)).scl ≠ up.scl ∧
    (tick .quiet { flying with phase := 4 }).sda ≠ flying.sda ∧
    (tick .quiet (acceptWord 0 State.reset)).sclDir ≠ State.reset.sclDir ∧
    (tick .quiet { acceptWord 0 State.reset with phase := 1 }).sdaDir ≠ State.reset.sdaDir := by decide

/-- StepIsARunOfTicks and BusyFromAcceptanceToCompletion, the idle clause. -/
theorem witness_run_of_ticks : ∃ t, ({ up with host := [.present 0x10000] } : State).busy = false ∧
    step { up with host := [.present 0x10000] } = .next t ∧ (PortInput.holding 0x10000).opValid = true ∧
    (PortInput.holding 0x10000).opWord = 0x10000 ∧ (PortInput.holding 0x10000).rst = false :=
  ⟨_, rfl, rfl, rfl, rfl, rfl⟩

/-- StepIsARunOfTicks, the busy clause. -/
theorem witness_rest_of_ticks : ∃ t, flying.busy = true ∧ flying.phase.toNat ≤ flying.inFlight.length ∧
    step flying = .next t := ⟨_, rfl, Nat.zero_le _, rfl⟩

/-- TheBusIsNeverSampled: two inputs that differ on the bus alone. -/
theorem witness_bus_differs :
    let p := PortInput.holding 0x34400
    let q := { p with sclIn := false, sdaIn := false }
    p ≠ q ∧ p.opValid = q.opValid ∧ p.opWord = q.opWord ∧ p.rst = q.rst := by decide

/-- ResetState, ResetWinsAndReleasesTheBus: a reset tick that cuts an open frame, and a reset among the host's moves. -/
theorem witness_reset : ({ PortInput.quiet with rst := true } : PortInput).rst = true ∧
    (standing true false).lines = Lines.driven true false ∧
    ({ flying with host := [.reset] } : State).host = .reset :: [] := by decide

/-- StepKeepsTheInvariant, TickKeepsTheInvariant, LevelsAfterAnyProgram, CompositesReframeTheBus: an idle state with both
lines driven that has the invariant. -/
theorem witness_invariant_idle : up.Inv ∧ up.busy = false ∧ up.sclDir = .output ∧ Instr.stop.defined = true ∧
    ∃ t, step up = .next t :=
  ⟨⟨by decide, by decide, fun _ => ⟨rfl, rfl⟩, fun h => by cases h⟩, rfl, rfl, rfl, _, rfl⟩

/-- StepKeepsTheInvariant, TickKeepsTheInvariant: a state in flight that has the invariant. -/
theorem witness_invariant_busy : flying.Inv ∧ ∃ t, step flying = .next t :=
  ⟨⟨by decide, by decide, fun h => absurd h (by decide), fun _ => ⟨Nat.zero_le _, up.lines, ⟨rfl, rfl⟩, rfl⟩⟩, _, rfl⟩

/-- LevelsAfterAnyProgram: its last tick. -/
theorem witness_quiet : PortInput.quiet.rst = false ∧ PortInput.quiet.opValid = false := by decide

/-- ResetHasTheInvariant. -/
theorem witness_admitted_parameters : Config.usual.wf = true := by decide

/-- NothingReachesTheWireBeforeSetup. -/
theorem witness_before_setup : State.reset.Inv ∧ State.reset.busy = false ∧ State.reset.sclDir = .input ∧
    ∃ t, exec .start State.reset = .next t :=
  ⟨⟨by decide, by decide, fun _ => ⟨rfl, rfl⟩, fun h => by cases h⟩, rfl, rfl, _, rfl⟩

/-- WireIsTheAndOfBothSides, the push-pull clause: the environment lets both driven lines go. -/
theorem witness_no_contention : let l := Lines.driven true true; let env : Env := ⟨true, true⟩
    (l.sclDir = .output → l.scl = true → env.scl = true) ∧ (l.sdaDir = .output → l.sda = true → env.sda = true) := by
  decide

/-- TheWireCarriesTheSymbols: an environment that does pull data low, where the block has it low. -/
theorem witness_environment :
    EnvKeepsOff (fun n => if n = 2 then ⟨true, false⟩ else ⟨true, true⟩)
      [.dir .sda .output, .drive .sda false, .settle] := by
  intro n
  by_cases h : n = 2
  · subst h
    refine ⟨rfl, fun l hl _ ho => ?_⟩
    have : l = ⟨true, false, .input, .output⟩ := by
      simpa [lineStates, lineStatesFrom, Event.onLines, Lines.reset] using hl.symm
    rw [this] at ho
    simp [Lines.own, ownLevel] at ho
  · simp [h]

/-- The slave that answers all through every acknowledge slot, from the slot's clock-low write on, and at no other time. -/
def acknowledging (c : Config) (prog : List Instr) (n : Nat) : Env := ⟨true, (sampleMarks c prog)[n]? != some true⟩

/-- TheWireCarriesTheSymbols, R60's own premise: it meets it on every program. -/
theorem witness_acknowledging_slave (c : Config) (prog : List Instr) :
    EnvKeepsToSlots c prog (acknowledging c prog) := fun n => ⟨rfl, fun h => by simpa [acknowledging] using h⟩

/-- The marks are true of the ninth cell alone: `SETUP`, then `SENDB`, three samples a cell. -/
theorem test_slot_samples : sampleMarks Config.usual [.setup, .sendb 0x80] =
    List.replicate (1 + 4 + 24) false ++ List.replicate 3 true := by decide

/-- AcknowledgeSlotIsInvisible, both ends of the range. -/
theorem witness_slot : 42 ≤ 42 ∧ 42 ≤ 45 ∧ 42 ≤ 45 ∧ 45 ≤ 45 := by decide

/-- CmdSendsOneFrame, WratSendsTwoFrames, HandMadeFrameCarriesItsBytes. -/
theorem witness_between_frames : up.BetweenFrames := ⟨rfl, rfl, by decide, by decide⟩

/-- PresentedWordRuns. -/
theorem witness_presented : ({ up with host := [.present 0x10000] } : State).busy = false ∧
    decodeTableWord 24 0x10000 = some .start := by decide

/-- ProgramsRunInOrder. -/
theorem witness_program : ({ up with host := [.present 0x10000, .present 0x20000, .reset] } : State).busy = false ∧
    ({ up with host := [.present 0x10000, .present 0x20000, .reset] } : State).host =
      presented [0x10000, 0x20000] ++ [.reset] := by decide

/-- SettleDelaysBoundTheTime: a realisation of `START` in which everything takes one cycle. -/
theorem witness_realisation :
    Realises Config.usual ((microOps Config.usual .start).map MicroOp.event)
      ((events startList).map fun e => (e, 1)) := ⟨by decide, by decide⟩

/-- WratWritesTheReferenceDisplay, BootBlanksTheReferenceDisplay, at both ends of the positions. -/
theorem witness_reference_slave : up.BetweenFrames ∧ up.cfg.wf = true ∧ ClassesDistinct up.cfg ∧
    (0 : Byte).toNat < up.cfg.digitCount ∧ (3 : Byte).toNat < up.cfg.digitCount :=
  ⟨witness_between_frames, by decide, by unfold ClassesDistinct; decide, by decide, by decide⟩

/-- EncoderIssuesOnlyComposites. -/
theorem witness_calls : EncoderCall.clear ≠ .init ∧ EncoderCall.setDots 1 = .setDots 1 ∧
    EncoderCall.bright 3 = .bright 3 := by decide

/-- EncoderKeepsTheContract. -/
theorem witness_calls_in_range : Config.usual.wf = true ∧ EncoderCall.setDec 12 3 .right ≠ .init ∧
    ((issuedByCalls hc Config.usual .init [.init, .setDec 12 3 .right]).map fun prog =>
      prog.all fun i => i.positionInRange Config.usual) = some true ∧
    (hostProgram? ⟨Config.usual, hc⟩ [.init, .setDec 12 3 .right]).isSome = true := by decide +kernel

/-- DigitsCarryTheDotMask. -/
theorem witness_dot_mask : (⟨0b0010⟩ : EncoderState).dotMask.testBit (1 : Byte).toNat = true ∧
    (⟨0b0010⟩ : EncoderState).dotMask.testBit (0 : Byte).toNat = false := by decide

/-- DecimalDigitsDescend, PaddedWritesFillTheWidth: the sentinel and the offset before it. -/
theorem witness_offsets : (255 : Byte) = sentinel ∧ (254 : Byte) ≠ sentinel := by decide

/-- LeftAlignedLeadsAtTheOffset, with no room to spare; its clause on value 0 has that one hypothesis. -/
theorem witness_left : 234 ≠ 0 ∧ (252 : Byte).toNat + (Nat.digits 10 234).length ≤ 255 := by simp

/-- CharactersAreLookedUpInOrder: a character of each kind. -/
theorem witness_characters : hc.charMap 97 = 0 ∧ ({ hc with charMap := fun _ => 7 } : HostConfig).charMap 33 ≠ 0 ∧
    charGlyph hc 63 = 0 ∧ (63 : Byte) ≠ 0x20 ∧ charGlyph hc 97 ≠ 0 := by decide +kernel

/-- ScrollEndsAtTheTerminator: "AB" on one digit, on three, on four. -/
theorem witness_scroll : (stringChars [65, 66]).length = 2 ∧ 1 ≤ 1 ∧ 3 ≤ 2 + 1 ∧ 2 + 1 - 1 < 3 ∧ 2 + 1 < 4 ∧
    (stringChars [0, 66]).length = 0 := by decide

end Sys2Proof.Tests
end

section
/-! Proofs for 00_scope.md: the checks of a parameter set, and the table of micro-operations. -/

namespace Sys2Proof.Machine

/-! ### The checks of a parameter set (R8, R9) -/

theorem countP_range_eq_one_iff (n : Nat) (p : Nat → Bool) :
    (List.range n).countP p = 1 ↔ ∃ i < n, ∀ j < n, p j = decide (i = j) := by
  rw [List.countP_eq_length_filter, List.length_eq_one_iff]
  constructor
  · rintro ⟨i, h⟩
    have mem_iff (j : Nat) : (j < n ∧ p j = true) ↔ j = i := by
      rw [← List.mem_range, ← List.mem_filter, h, List.mem_singleton]
    refine ⟨i, ((mem_iff i).2 rfl).1, fun j hj => ?_⟩
    rw [Bool.eq_iff_iff, decide_eq_true_iff, eq_comm (a := i), ← mem_iff j, and_iff_right hj]
  · rintro ⟨i, hi, h⟩
    refine ⟨i, List.perm_singleton.1 ?_⟩
    rw [List.perm_ext_iff_of_nodup (List.nodup_range.filter _) (List.nodup_singleton i)]
    intro j
    rw [List.mem_filter, List.mem_range, List.mem_singleton]
    constructor
    · rintro ⟨hj, hp⟩
      rw [h j hj, decide_eq_true_iff] at hp
      exact hp.symm
    · rintro rfl
      exact ⟨hi, by rw [h j hi, decide_eq_true_iff]⟩

theorem eq_ofNat_two_pow_iff {w : Nat} (d : BitVec w) (i : Nat) :
    d = BitVec.ofNat w (2 ^ i) ↔ ∀ j < w, d.getLsbD j = decide (i = j) := by
  rw [BitVec.eq_of_getLsbD_eq_iff]
  refine forall₂_congr fun j hj => ?_
  rw [BitVec.getLsbD_ofNat, Nat.testBit_two_pow, decide_eq_true hj, Bool.true_and]

theorem hostConfig_wf_iff (h : HostConfig) :
    h.wf = true ↔ ((List.range 8).countP fun i => h.segDp.getLsbD i) = 1 := by
  simp only [HostConfig.wf, List.any_eq_true, List.mem_range, beq_iff_eq, eq_ofNat_two_pow_iff,
    countP_range_eq_one_iff]

theorem config_wf_iff (c : Config) :
    c.wf = true ↔ 1 ≤ c.digitCount ∧
      (∀ q < c.digitCount, q < 256 ∧ c.cmdAddr &&& BitVec.ofNat 8 q = 0) ∧
      c.cmdDisplayOn &&& 0x07 = 0 ∧ 1 ≤ c.settleCycles := by
  simp only [Config.wf, Config.hasDigits, Config.addressLeavesPositionsClear, Config.displayLeavesLevelClear,
    Config.settles, Bool.and_eq_true, List.all_eq_true, List.mem_range, decide_eq_true_eq, beq_iff_eq, and_assoc]

theorem boot?_of_wf {p : ParameterSet} (h : p.wf = true) :
    boot? p = some (State.resetWith p.block, .init) := if_pos h

theorem boot?_of_not_wf {p : ParameterSet} (h : ¬ p.wf = true) : boot? p = none := if_neg h

theorem hostProgram?_of_not_wf {p : ParameterSet} (h : ¬ p.wf = true) (calls : List EncoderCall) :
    hostProgram? p calls = none := by
  simp [hostProgram?, h]

/-- Settles O5: `ParameterSet.wf` is the conjunction of R8's and R9's checks, and both the boot and the host's program
start with it. -/
theorem parameterSetsAreChecked : Obligations.ParameterSetsAreChecked := by
  intro p passes
  have wf_iff_passes : p.wf = true ↔ passes := by
    rw [ParameterSet.wf, Bool.and_eq_true, config_wf_iff, hostConfig_wf_iff]
    exact ⟨fun ⟨⟨hd, ha, ho, hs⟩, hb⟩ => ⟨hd, ha, ho, hb, hs⟩,
      fun ⟨hd, ha, ho, hb, hs⟩ => ⟨⟨hd, ha, ho, hs⟩, hb⟩⟩
  rw [← wf_iff_passes]
  exact ⟨boot?_of_wf, fun h => ⟨boot?_of_not_wf h, hostProgram?_of_not_wf h⟩⟩

/-! ### The table of micro-operations (R11) -/

/-- Settles O6: each row is `perform` of its micro-operation, the line element by `MicroOp.onLines`, the event by
`MicroOp.event`. -/
theorem microOperationTable : Obligations.MicroOperationTable :=
  fun _ => ⟨rfl, rfl, rfl, rfl, rfl, rfl, rfl⟩

end Sys2Proof.Machine
end

section
/-! Proofs for 10_state.md: acceptance, execution and completion (R31 to R33), a run of ticks as one operation (R34), reset
(R37), the invariant of the block (R27, R29, R38), the levels after an operation (R39), and the wire (R28, R36). -/

namespace Sys2Proof.Machine

/-! ### Micro-operations and lists on the lines (R21 to R23, R39) -/

/-- Each micro-operation writes the one line element of its name. -/
theorem onLines_changes (m : MicroOp) (l : Lines) :
    ((m.onLines l).scl ≠ l.scl → m = .c0 ∨ m = .c1) ∧ ((m.onLines l).sda ≠ l.sda → m = .d0 ∨ m = .d1) ∧
    ((m.onLines l).sclDir ≠ l.sclDir → m = .dirc) ∧ ((m.onLines l).sdaDir ≠ l.sdaDir → m = .dird) := by
  cases m <;> simp [MicroOp.onLines]

/-- A line driven in `l` is driven in `l'` (R23). -/
def KeepsDriven (l l' : Lines) : Prop :=
  (l.sclDir = .output → l'.sclDir = .output) ∧ (l.sdaDir = .output → l'.sdaDir = .output)

theorem KeepsDriven.refl (l : Lines) : KeepsDriven l l := ⟨id, id⟩

theorem KeepsDriven.trans {l l' l'' : Lines} (h : KeepsDriven l l') (h' : KeepsDriven l' l'') : KeepsDriven l l'' :=
  ⟨h'.1 ∘ h.1, h'.2 ∘ h.2⟩

theorem onLines_keepsDriven (m : MicroOp) (l : Lines) : KeepsDriven l (m.onLines l) := by
  cases m <;> simp [KeepsDriven, MicroOp.onLines]

theorem linesAfter_keepsDriven (ms : List MicroOp) (l : Lines) : KeepsDriven l (linesAfter ms l) := by
  induction ms generalizing l with
  | nil => exact .refl l
  | cons m ms ih => exact (onLines_keepsDriven m l).trans (ih _)

/-- Where an operation leaves the lines (R39): a boundary of its own, whatever its operands and the parameters. -/
def endLines (l : Lines) : Instr → Lines
  | .setup => Lines.driven true true
  | .start | .sendb _ => { l with scl := true, sda := false }
  | .stop | .cmd _ | .wrat _ _ => { l with scl := true, sda := true }
  | .reserved6 | .reserved7 => l

theorem linesAfter_microOps (c : Config) (i : Instr) (l : Lines) : linesAfter (microOps c i) l = endLines l i := by
  cases i with
  | setup => exact linesAfter_setupList l
  | start => exact linesAfter_startList l
  | stop => exact linesAfter_stopList l
  | sendb a => exact linesAfter_byteList a l
  | cmd a => exact linesAfter_cmdList a l
  | wrat a b => exact linesAfter_wratList c a b l
  | reserved6 | reserved7 => rfl

theorem endLines_directions (l : Lines) {i : Instr} (h : i ≠ .setup) :
    (endLines l i).sclDir = l.sclDir ∧ (endLines l i).sdaDir = l.sdaDir := by
  cases i with
  | setup => exact absurd rfl h
  | start | stop | sendb | cmd | wrat | reserved6 | reserved7 => exact ⟨rfl, rfl⟩

/-- R38. -/
theorem endLines_atBoundary {l : Lines} (h : l.AtBoundary) (i : Instr) : (endLines l i).AtBoundary := by
  cases i with
  | setup => exact ⟨rfl, rfl⟩
  | start | stop | sendb | cmd | wrat => exact ⟨rfl, h.2⟩
  | reserved6 | reserved7 => exact h

/-- Whatever the latches hold, the sequencer's list is that of an operation. -/
theorem seq_eq_microOps (c : Config) (op : BitVec 3) (a b : Byte) : ∃ i, seq c op a b = microOps c i := by
  unfold seq
  split
  · exact ⟨.setup, rfl⟩
  · exact ⟨.start, rfl⟩
  · exact ⟨.stop, rfl⟩
  · exact ⟨.sendb a, rfl⟩
  · exact ⟨.cmd a, rfl⟩
  · exact ⟨.wrat a b, rfl⟩
  · exact ⟨.reserved6, rfl⟩

theorem inFlight_length_le (s : State) : s.inFlight.length ≤ 164 := by
  obtain ⟨i, hi⟩ := seq_eq_microOps s.cfg s.op s.a s.b
  rw [State.inFlight, hi]
  exact microOps_length_le s.cfg i

/-- `PHASE` does not wrap: no list is that long. -/
theorem execMicro_phase_toNat {s : State} {m : MicroOp} (h : s.phase.toNat < s.inFlight.length) :
    (execMicro m s).phase.toNat = s.phase.toNat + 1 := by
  have := inFlight_length_le s
  rw [execMicro_phase]
  bv_omega

@[simp] theorem execMicro_inFlight (m : MicroOp) (s : State) : (execMicro m s).inFlight = s.inFlight := rfl

@[simp] theorem runMicros_inFlight (ms : List MicroOp) (s : State) : (runMicros ms s).inFlight = s.inFlight := by
  simp [State.inFlight]

/-! ### One operation (R31, R34) -/

theorem exec_eq_operate (i : Instr) (s : State) :
    exec i s = operate i.opcode i.aOperand i.bOperand (microOps s.cfg i) s := by
  cases i <;> rfl

theorem exec_of_busy (i : Instr) {s : State} (h : s.busy = true) : exec i s = .next s := by
  rw [exec_eq_operate, operate_of_busy _ _ _ _ _ h]

/-- An idle block runs an operation to its end lines. -/
theorem exec_ranTo (i : Instr) {s : State} (h : s.busy = false) :
    ∃ t, exec i s = .next t ∧ s.RanTo (microOps s.cfg i) (endLines s.lines i) t := by
  obtain ⟨t, ht, hran, -, -⟩ := exec_of_idle i s h
  exact ⟨t, ht, linesAfter_microOps s.cfg i s.lines ▸ hran⟩

/-- The next state of an operation: a busy block's own, or the one the whole list has run to. -/
theorem exec_next_cases {i : Instr} {s t : State} (h : exec i s = .next t) :
    (s.busy = true ∧ t = s) ∨ (s.busy = false ∧ s.RanTo (microOps s.cfg i) (endLines s.lines i) t) := by
  cases hb : s.busy with
  | true => exact .inl ⟨rfl, Host.Outcome.next.inj (h.symm.trans (exec_of_busy i hb))⟩
  | false =>
    obtain ⟨t', ht, hran⟩ := exec_ranTo i hb
    exact .inr ⟨rfl, Host.Outcome.next.inj (ht.symm.trans h) ▸ hran⟩

/-- Completion overwrites `OP`, `A`, `B` by free values (R25), so what they held does not matter. -/
theorem complete_congr {s t : State} (hl : s.lines = t.lines) (hp : s.phase = t.phase) (ht : s.trace = t.trace)
    (hh : s.host = t.host) (hc : s.cfg = t.cfg) (hf : s.freeIdx = t.freeIdx) : complete s = complete t := by
  cases s
  cases t
  simp only [State.lines, Lines.mk.injEq] at hl hp ht hh hc hf
  obtain ⟨hscl, hsda, hsclDir, hsdaDir⟩ := hl
  subst hscl hsda hsclDir hsdaDir hp ht hh hc hf
  rfl

/-- Unused operand fields, which the sequencer latches and an assembler clears, leave no mark. -/
theorem complete_runMicros_accept (op op' : BitVec 3) (a a' b b' : Byte) (ms : List MicroOp) (s : State) :
    complete (runMicros ms (accept op a b s)) = complete (runMicros ms (accept op' a' b' s)) := by
  apply complete_congr <;> simp

/-- The decoded operation of an idle block is what the sequencer does with the word it has latched. -/
theorem exec_decode_of_idle (w : CommandWord) {s : State} (h : s.busy = false) :
    exec (decode w) s = .next (complete (runMicros (wordList s.cfg w) (acceptWord w s))) := by
  rw [exec_eq_operate, operate_of_idle _ _ _ _ _ h, ← wordList_eq, acceptWord, complete_runMicros_accept]

/-! ### One tick (R31 to R33, R37) -/

theorem tick_of_rst {p : PortInput} (hr : p.rst = true) (s : State) : tick p s = resetBlock s := if_pos hr

theorem tick_execute {p : PortInput} {s : State} {m : MicroOp} (hr : p.rst = false) (hb : s.busy = true)
    (hm : s.inFlight[s.phase.toNat]? = some m) : tick p s = execMicro m s := by
  simp [tick, hr, hb, hm]

theorem tick_complete {p : PortInput} {s : State} (hr : p.rst = false) (hb : s.busy = true)
    (hp : s.phase.toNat = s.inFlight.length) : tick p s = complete s := by
  simp [tick, hr, hb, hp]

theorem tick_accept {p : PortInput} {s : State} (hr : p.rst = false) (hb : s.busy = false) (hv : p.opValid = true) :
    tick p s = acceptWord p.opWord s := by
  simp [tick, hr, hb, hv]

theorem tick_quiet {p : PortInput} {s : State} (hr : p.rst = false) (hb : s.busy = false) (hv : p.opValid = false) :
    tick p s = s := by
  simp [tick, hr, hb, hv]

/-- A busy block does not see its command port. -/
theorem tick_busy_eq {p q : PortInput} {s : State} (hp : p.rst = false) (hq : q.rst = false) (hb : s.busy = true) :
    tick p s = tick q s := by
  simp [tick, hp, hq, hb]

/-- A tick without reset leaves the lines or executes one micro-operation on them. -/
theorem tick_lines {p : PortInput} (s : State) (hr : p.rst = false) :
    (tick p s).lines = s.lines ∨
    (s.busy = true ∧ ∃ m, s.inFlight[s.phase.toNat]? = some m ∧ (tick p s).lines = m.onLines s.lines) := by
  rcases tick_cases p s with ⟨hr', -⟩ | ⟨-, hb, m, hm, ht⟩ | ⟨-, -, -, ht⟩ | ⟨-, -, -, ht⟩ | ⟨-, -, -, ht⟩ | ⟨-, -, -, ht⟩
  · rw [hr] at hr'
    cases hr'
  · exact .inr ⟨hb, m, hm, congrArg State.lines ht⟩
  all_goals
    rw [ht]
    exact .inl rfl

/-! ### A run of ticks (R34) -/

theorem ticks_add (input : Nat → PortInput) (m n : Nat) (s : State) :
    ticks input (m + n) s = ticks (fun k => input (k + m)) n (ticks input m s) := by
  induction m generalizing input s with
  | zero => rw [Nat.zero_add]; rfl
  | succ m ih => rw [Nat.succ_add]; exact ih (fun k => input (k + 1)) (tick (input 0) s)

section NoReset

variable {input : Nat → PortInput} (hr : ∀ k, (input k).rst = false)
include hr

/-- The micro-operations that are next in the list, one a tick. -/
theorem ticks_execute {ms rest : List MicroOp} {s : State} (hb : s.busy = true)
    (hms : s.inFlight.drop s.phase.toNat = ms ++ rest) : ticks input ms.length s = runMicros ms s := by
  induction ms generalizing input s with
  | nil => rfl
  | cons m ms ih =>
    have hlt : s.phase.toNat < s.inFlight.length := by
      have := congrArg List.length hms
      simp at this
      omega
    rw [List.drop_eq_getElem_cons hlt, List.cons_append, List.cons.injEq] at hms
    obtain ⟨hm, htail⟩ := hms
    have hphase : (execMicro m s).phase.toNat = s.phase.toNat + 1 := execMicro_phase_toNat hlt
    have htick : tick (input 0) s = execMicro m s := tick_execute (hr 0) hb (by rw [List.getElem?_eq_getElem hlt, hm])
    rw [List.length_cons, ticks, htick, runMicros_cons]
    exact ih (fun k => hr (k + 1)) hb (by rw [hphase]; exact htail)

/-- The rest of an operation in flight, and the tick that completes it. -/
theorem ticks_drain {s : State} (hb : s.busy = true) (hp : s.phase.toNat ≤ s.inFlight.length) :
    ticks input (s.inFlight.length - s.phase.toNat + 1) s = drain s := by
  have hlen : (s.inFlight.drop s.phase.toNat).length = s.inFlight.length - s.phase.toNat := List.length_drop
  have hphase : (runMicros (s.inFlight.drop s.phase.toNat) s).phase.toNat = s.inFlight.length := by
    have := inFlight_length_le s
    rw [runMicros_phase, hlen]
    bv_omega
  rw [ticks_add, ← hlen, ticks_execute hr hb (List.append_nil _).symm, drain, if_pos hp]
  exact tick_complete (hr _) (by rw [runMicros_busy, hb]) (by rw [runMicros_inFlight, hphase])

/-- A word accepted, its list executed, and the completing tick. -/
theorem ticks_accept {s : State} (hb : s.busy = false) (hv : (input 0).opValid = true) :
    ticks input ((wordList s.cfg (input 0).opWord).length + 2) s =
      complete (runMicros (wordList s.cfg (input 0).opWord) (acceptWord (input 0).opWord s)) := by
  rw [ticks, tick_accept (hr 0) hb hv]
  exact ticks_drain (fun k => hr (k + 1)) (s := acceptWord (input 0).opWord s) rfl (Nat.zero_le _)

/-- The ticks between acceptance and completion. -/
theorem ticks_accepted {s : State} (hb : s.busy = false) (hv : (input 0).opValid = true) {k : Nat}
    (hk : k ≤ (wordList s.cfg (input 0).opWord).length) :
    ticks input (k + 1) s =
      runMicros ((wordList s.cfg (input 0).opWord).take k) (acceptWord (input 0).opWord s) := by
  have h := ticks_execute (fun k => hr (k + 1)) (s := acceptWord (input 0).opWord s) rfl
    (List.take_append_drop k (wordList s.cfg (input 0).opWord)).symm
  rw [List.length_take_of_le hk] at h
  rw [ticks, tick_accept (hr 0) hb hv, h]

end NoReset

/-! ### One step (R34) -/

/-- A step that is no reset finishes the operation in flight first. -/
theorem step_of_busy {s : State} (hb : s.busy = true) (hh : ∀ rest, s.host ≠ .reset :: rest) :
    step s = .next (drain s) := by
  rcases hs : s.host with _ | ⟨_ | _, rest⟩
  · simp [step, hs, hb]
  · simp [step, hs, hb]
  · exact absurd hs (hh rest)

theorem step_of_idle {s : State} {w : CommandWord} {rest : List HostMove} (hb : s.busy = false)
    (hh : s.host = .present w :: rest) : step s = exec (decode w) { s with host := rest } := by
  simp [step, hh, hb]

theorem step_of_reset {s : State} {rest : List HostMove} (hh : s.host = .reset :: rest) :
    step s = .next (resetBlock { s with host := rest }) := by
  simp [step, hh]

theorem drain_host (s : State) : (drain s).host = s.host := by
  unfold drain
  split
  · rw [complete_host, runMicros_host]
  · rfl

theorem drain_keepsDriven (s : State) : KeepsDriven s.lines (drain s).lines := by
  unfold drain
  split
  · rw [complete_lines, runMicros_lines]
    exact linesAfter_keepsDriven _ _
  · exact .refl _

/-- Settles O25: a step is `drain` or `exec`, and a run of ticks gives the state that each of them names. -/
theorem stepIsARunOfTicks : Obligations.StepIsARunOfTicks := by
  refine ⟨fun s t w rest input hb hh hs hv hw hr => ?_, fun s t input hb hp hh hs hr => ?_⟩
  · subst hw
    have hrun := exec_decode_of_idle (input 0).opWord (s := { s with host := rest }) hb
    rw [← step_of_idle hb hh, hs] at hrun
    exact (ticks_accept hr (s := { s with host := rest }) hb hv).trans (Host.Outcome.next.inj hrun).symm
  · rw [ticks_drain hr hb hp]
    exact Host.Outcome.next.inj ((step_of_busy hb hh).symm.trans hs)

/-- Settles O26: between acceptance and completion the state is the accepted one with part of the list executed. -/
theorem busyFromAcceptanceToCompletion : Obligations.BusyFromAcceptanceToCompletion := by
  intro s input hb hv hr n
  refine ⟨fun k hk hkn => ?_, ?_⟩
  · obtain ⟨j, rfl⟩ := Nat.exists_eq_add_of_le' hk
    rw [ticks_accepted hr hb hv (by omega), runMicros_busy]
    rfl
  · rw [ticks_accept hr hb hv, complete_busy]

/-! ### The invariant of the block (R27, R29, R38) -/

theorem event_onLines (m : MicroOp) (l : Lines) : m.event.onLines l = m.onLines l := by
  cases m <;> rfl

theorem replay_append (es fs : List Event) (l : Lines) : replay (es ++ fs) l = replay fs (replay es l) := by
  simp [replay]

theorem inv_withHost {s : State} (h : s.Inv) (moves : List HostMove) : ({ s with host := moves } : State).Inv :=
  ⟨h.params, h.replays, h.boundary, h.inFlight⟩

theorem resetBlock_inv {s : State} (h : s.cfg.wf = true) : (resetBlock s).Inv :=
  ⟨h, rfl, fun _ => ⟨rfl, rfl⟩, nofun⟩

theorem acceptWord_inv {s : State} (h : s.Inv) (hb : s.busy = false) (w : CommandWord) : (acceptWord w s).Inv :=
  ⟨h.params, h.replays, nofun, fun _ => ⟨Nat.zero_le _, s.lines, h.boundary hb, rfl⟩⟩

theorem execMicro_inv {s : State} {m : MicroOp} (h : s.Inv) (hb : s.busy = true)
    (hm : s.inFlight[s.phase.toNat]? = some m) : (execMicro m s).Inv := by
  obtain ⟨hlt, -⟩ := List.getElem?_eq_some_iff.mp hm
  have hphase : (execMicro m s).phase.toNat = s.phase.toNat + 1 := execMicro_phase_toNat hlt
  obtain ⟨-, l, hl, hlines⟩ := h.inFlight hb
  refine ⟨h.params, ?_, fun hb' => absurd (hb.symm.trans hb') (by decide), fun _ => ⟨?_, l, hl, ?_⟩⟩
  · rw [execMicro_trace, replay_append, h.replays]
    exact event_onLines m s.lines
  · rw [hphase]
    exact hlt
  · rw [hphase, execMicro_inFlight, List.take_add_one, hm, linesAfter_append, hlines]
    rfl

/-- A whole list leads from one boundary to another. -/
theorem complete_inv {s : State} (h : s.Inv) (hb : s.busy = true) (hp : s.phase.toNat = s.inFlight.length) :
    (complete s).Inv := by
  obtain ⟨-, l, hl, hlines⟩ := h.inFlight hb
  obtain ⟨i, hi⟩ := seq_eq_microOps s.cfg s.op s.a s.b
  have hend : endLines l i = s.lines := by
    rw [← hlines, hp, List.take_length, State.inFlight, hi, linesAfter_microOps]
  exact ⟨h.params, h.replays, fun _ => hend ▸ endLines_atBoundary hl i, nofun⟩

/-- Settles O33, by what a tick can do. -/
theorem tickKeepsTheInvariant : Obligations.TickKeepsTheInvariant := by
  intro p s h
  rcases tick_cases p s with ⟨-, ht⟩ | ⟨-, hb, m, hm, ht⟩ | ⟨-, hb, hp, ht⟩ | ⟨-, -, -, ht⟩ | ⟨-, hb, -, ht⟩ |
    ⟨-, -, -, ht⟩ <;> rw [ht]
  · exact resetBlock_inv h.params
  · exact execMicro_inv h hb hm
  · exact complete_inv h hb hp
  · exact h
  · exact acceptWord_inv h hb p.opWord
  · exact h

theorem ticks_inv (input : Nat → PortInput) (n : Nat) {s : State} (h : s.Inv) : (ticks input n s).Inv := by
  induction n generalizing input s with
  | zero => exact h
  | succ n ih => exact ih _ (tickKeepsTheInvariant (input 0) s h)

/-- Settles O32: a step is a reset, a run of ticks (O25) or nothing at all. -/
theorem stepKeepsTheInvariant : Obligations.StepKeepsTheInvariant := by
  intro s t h hs
  obtain ⟨accepted, inFlight⟩ := stepIsARunOfTicks
  rcases step_cases s t hs with ⟨rest, -, rfl⟩ | ⟨hb, hh, -⟩ | ⟨w, rest, hb, hh, -⟩ | ⟨-, -, rfl⟩
  · exact resetBlock_inv h.params
  · rw [← inFlight s t (fun _ => .quiet) hb (h.inFlight hb).1 hh hs fun _ => rfl]
    exact ticks_inv _ _ h
  · rw [← accepted s t w rest (fun _ => .holding w) hb hh hs rfl rfl fun _ => rfl]
    exact ticks_inv _ _ (inv_withHost h rest)
  · exact h

theorem resetWith_inv {c : Config} (h : c.wf = true) : (State.resetWith c).Inv :=
  ⟨h, rfl, fun _ => ⟨rfl, rfl⟩, nofun⟩

/-- Settles O31: an empty trace replays to the released lines, which are a boundary. -/
theorem resetHasTheInvariant : Obligations.ResetHasTheInvariant :=
  ⟨resetWith_inv (by decide), fun _ => resetWith_inv⟩

/-! ### The sequencer, tick by tick (R21 to R25, R31 to R33) -/

/-- Settles O18: `operate` accepts nothing, and `drain` leaves the host's list. -/
theorem busyBlockAcceptsNothing : Obligations.BusyBlockAcceptsNothing := by
  refine fun s hb => ⟨fun i => exec_of_busy i hb, fun w rest t hh hs => ?_⟩
  obtain rfl : drain s = t := Host.Outcome.next.inj ((step_of_busy hb (by simp [hh])).symm.trans hs)
  exact drain_host s

/-- Settles O21: the port is read in an idle state only. -/
theorem acceptLatchesTheCommandWord : Obligations.AcceptLatchesTheCommandWord := by
  refine fun p s hr => ⟨fun hb hv => ?_, fun hb q hq => tick_busy_eq hq hr hb⟩
  rw [tick_accept hr hb hv]
  exact ⟨rfl, rfl, rfl, rfl, rfl, rfl, rfl, rfl, rfl⟩

/-- Settles O22: below the length of the list there is an element to execute. -/
theorem executePerformsOneMicroOperation : Obligations.ExecutePerformsOneMicroOperation := by
  intro p s hr hb hlt
  have hm := List.getElem?_eq_getElem hlt
  exact ⟨_, hm, tick_execute hr hb hm⟩

/-- Settles O23: completion touches `BUSY` and the free latches. -/
theorem completeClearsBusy : Obligations.CompleteClearsBusy := by
  intro p s hr hb hp
  rw [tick_complete hr hb hp]
  exact ⟨rfl, rfl, rfl, rfl, rfl, rfl⟩

/-- Settles O24: a tick that changes a line executes a micro-operation, and each writes only its own element. -/
theorem linesChangeOnlyByTheirMicroOperations : Obligations.LinesChangeOnlyByTheirMicroOperations := by
  intro p s hr
  simp only [← lines_scl, ← lines_sda, ← lines_sclDir, ← lines_sdaDir]
  rcases tick_lines s hr with hl | ⟨hb, m, hm, hl⟩
  · simp [hl]
  · obtain ⟨hscl, hsda, hsclDir, hsdaDir⟩ := onLines_changes m s.lines
    rw [hl, hm]
    simp only [Option.some.injEq]
    exact ⟨fun h => ⟨hb, hscl h⟩, fun h => ⟨hb, hsda h⟩, fun h => ⟨hb, hsclDir h⟩, fun h => ⟨hb, hsdaDir h⟩⟩

/-- `s` with other values in the elements that are not read while `BUSY = 0` (R25, R27). -/
def withLatches (op : BitVec 3) (a b : Byte) (phase : BitVec 8) (s : State) : State :=
  { s with op := op, a := a, b := b, phase := phase }

/-- A tick of an idle block overwrites the latches or leaves the whole state. -/
theorem tick_withLatches (p : PortInput) {s : State} (hb : s.busy = false) (op : BitVec 3) (a b : Byte)
    (phase : BitVec 8) :
    tick p (withLatches op a b phase s) = tick p s ∨
    (tick p s = s ∧ tick p (withLatches op a b phase s) = withLatches op a b phase s) := by
  cases hr : p.rst with
  | true => exact .inl ((tick_of_rst hr _).trans (tick_of_rst hr s).symm)
  | false =>
    cases hv : p.opValid with
    | true => exact .inl ((tick_accept (s := withLatches op a b phase s) hr hb hv).trans
        (tick_accept hr hb hv).symm)
    | false => exact .inr ⟨tick_quiet hr hb hv, tick_quiet hr hb hv⟩

/-- Settles O28, by induction on the ticks: until a reset or an acceptance makes them equal, both states stay. -/
theorem idleLatchesAreNeverRead : Obligations.IdleLatchesAreNeverRead := by
  intro s op a b phase input n hb
  induction n generalizing input with
  | zero => rfl
  | succ n ih =>
    change (ticks _ n (tick (input 0) (withLatches op a b phase s))).visible = _
    rw [ticks]
    rcases tick_withLatches (input 0) hb op a b phase with h | ⟨hs, hs'⟩
    · rw [h]
    · rw [hs, hs']
      exact ih _

/-! ### Directions and levels over operations (R23, R39) -/

theorem exec_keepsDriven {i : Instr} {s t : State} (h : exec i s = .next t) : KeepsDriven s.lines t.lines := by
  rcases exec_next_cases h with ⟨-, rfl⟩ | ⟨-, hran⟩
  · exact .refl _
  · rw [hran.lines, ← linesAfter_microOps s.cfg]
    exact linesAfter_keepsDriven _ _

theorem step_keepsDriven {s t : State} (hh : ∀ rest, s.host ≠ .reset :: rest) (h : step s = .next t) :
    KeepsDriven s.lines t.lines := by
  rcases step_cases s t h with ⟨rest, hreset, -⟩ | ⟨-, -, rfl⟩ | ⟨w, rest, -, -, hexec⟩ | ⟨-, -, rfl⟩
  · exact absurd hreset (hh rest)
  · exact drain_keepsDriven s
  · exact exec_keepsDriven (s := { s with host := rest }) hexec
  · exact .refl _

/-- Settles O19: of the end lines only those of `SETUP` have new directions, and no step without reset lets a line go. -/
theorem onlySetupWritesDirections : Obligations.OnlySetupWritesDirections := by
  refine ⟨fun i s t h => ?_, fun s t => step_keepsDriven⟩
  simp only [← lines_sclDir, ← lines_sdaDir]
  rcases exec_next_cases h with ⟨hb, rfl⟩ | ⟨-, hran⟩
  · exact ⟨fun _ => ⟨rfl, rfl⟩, fun _ hidle => absurd (hb.symm.trans hidle) (by decide)⟩
  · rw [hran.lines]
    refine ⟨endLines_directions s.lines, fun hi _ => ?_⟩
    subst hi
    exact ⟨rfl, rfl⟩

theorem runAll_append_of_next {prog : List Instr} {s u : State} (h : runAll prog s = .next u) (rest : List Instr) :
    runAll (prog ++ rest) s = runAll rest u := by
  induction prog generalizing s with
  | nil => rw [← Host.Outcome.next.inj h, List.nil_append]
  | cons i prog ih =>
    rw [runAll] at h
    rw [List.cons_append, runAll]
    cases hi : exec i s with
    | next t =>
      rw [hi] at h
      exact ih h
    | fault r => cases r
    | refused r =>
      rw [hi] at h
      cases h

theorem runAll_of_idle (prog : List Instr) {s : State} (h : s.busy = false) :
    ∃ t, runAll prog s = .next t ∧ t.busy = false ∧ KeepsDriven s.lines t.lines := by
  induction prog generalizing s with
  | nil => exact ⟨s, rfl, h, .refl _⟩
  | cons i prog ih =>
    obtain ⟨u, hu, hran⟩ := exec_ranTo i h
    obtain ⟨t, ht, hidle, hdriven⟩ := ih hran.idle
    exact ⟨t, by rw [runAll, hu]; exact ht, hidle, (exec_keepsDriven hu).trans hdriven⟩

/-- Settles O34: the program before leaves the block idle, so the last operation runs to its end lines. -/
theorem levelsAfterAnyProgram : Obligations.LevelsAfterAnyProgram := by
  intro prog i s hb _
  obtain ⟨u, hu, hidle, hdriven⟩ := runAll_of_idle prog hb
  obtain ⟨t, ht, hran⟩ := exec_ranTo i hidle
  obtain ⟨hscl, hsda⟩ := hdriven.trans (exec_keepsDriven ht)
  refine ⟨t, by rw [runAll_append_of_next hu, runAll, ht]; rfl, hran.idle, fun hi => ?_, fun hi => ?_, hscl, hsda,
    fun p hr hv => by rw [tick_quiet hr hran.idle hv]⟩
  · rw [← lines_scl, ← lines_sda, hran.lines]
    rcases hi with rfl | rfl | ⟨a, rfl⟩ | ⟨a, b, rfl⟩ <;> exact ⟨rfl, rfl⟩
  · rw [← lines_scl, ← lines_sda, hran.lines]
    rcases hi with rfl | ⟨a, rfl⟩ <;> exact ⟨rfl, rfl⟩

/-! ### Reset, presented words and the wire (R28, R31, R36, R37) -/

/-- Settles O30: released lines read `(1, 1)`, which after `(1, 0)` is a STOP. -/
theorem resetWinsAndReleasesTheBus : Obligations.ResetWinsAndReleasesTheBus := by
  refine ⟨fun s rest hh => ⟨_, step_of_reset hh, rfl, rfl, rfl, rfl⟩, fun p s hr hl => ?_⟩
  rw [tick_of_rst hr, resetBlock_lines, hl]
  rfl

theorem decodeTableWord_eq_some {nbits w : Nat} {i : Instr} (h : decodeTableWord nbits w = some i) :
    ∃ cw, commandWord? w = some cw ∧ decode cw = i := by
  cases hc : commandWord? w with
  | none => simp [decodeTableWord, decodeNat, hc] at h
  | some cw => exact ⟨cw, rfl, by simpa [decodeTableWord, decodeNat, hc] using h⟩

theorem withFetchWord_of_commandWord (s : State) (nbits : Nat) {w : Nat} {cw : CommandWord}
    (h : commandWord? w = some cw) :
    s.withFetchWord nbits w = { s with busy := false, host := .present cw :: s.host.tail } := by
  simp [State.withFetchWord, h]

/-- Settles O45: `withFetchWord` presents the word that the table's decoder read. -/
theorem presentedWordRuns : Obligations.PresentedWordRuns := by
  refine ⟨fun s w rest => step_of_idle, fun s nbits w i h => ?_⟩
  obtain ⟨cw, hcw, rfl⟩ := decodeTableWord_eq_some h
  rw [withFetchWord_of_commandWord s nbits hcw]
  exact step_of_idle rfl rfl

theorem wireLevel_openDrain (d : Direction) (v env : Level) (line : Line) (n : Nat) :
    wireLevel (padOutput .openDrain d v) env line n = (ownLevel d v && env) := by
  cases d <;> cases v <;> rfl

theorem wireLevel_pushPull {d : Direction} {v env : Level} (h : d = .output → v = true → env = true) (line : Line)
    (n : Nat) : wireLevel (padOutput .pushPull d v) env line n = (ownLevel d v && env) := by
  cases d with
  | input => rfl
  | output =>
    cases v with
    | false => rfl
    | true => simp [wireLevel, padOutput, ownLevel, h rfl rfl]

/-- Settles O38, line by line. -/
theorem wireIsTheAndOfBothSides : Obligations.WireIsTheAndOfBothSides := by
  refine fun l env n => ⟨?_, fun hscl hsda => ?_⟩
  · simp only [Lines.wires, Lines.own, wireLevel_openDrain]
  · simp only [Lines.wires, Lines.own, wireLevel_pushPull hscl, wireLevel_pushPull hsda]

end Sys2Proof.Machine
end

section
/-! Proofs for 20_memory.md: idempotency (R56), the symbols on the wire (R59 to R61), the reference slave (R57, R62), the
order of operations (R63), and the frames of a run (R66). -/

namespace Sys2Proof.Machine

/-! ### A run of a whole program (R63) -/

theorem State.RanTo.refl {s : State} (h : s.busy = false) : s.RanTo [] s.lines s :=
  ⟨rfl, h, (List.append_nil _).symm, rfl, rfl⟩

theorem State.RanTo.trans {s t u : State} {ms ns : List MicroOp} {l l' : Lines} (h : s.RanTo ms l t)
    (h' : t.RanTo ns l' u) : s.RanTo (ms ++ ns) l' u :=
  ⟨h'.lines, h'.idle, by rw [h'.trace, h.trace, List.map_append, List.append_assoc], h'.params.trans h.params,
    h'.host.trans h.host⟩

/-- An idle block runs a program as one list, that of all its operations in order. -/
theorem runAll_ranTo (prog : List Instr) {s : State} (h : s.busy = false) :
    ∃ t, runAll prog s = .next t ∧
      s.RanTo (prog.flatMap (microOps s.cfg)) (linesAfter (prog.flatMap (microOps s.cfg)) s.lines) t := by
  induction prog generalizing s with
  | nil => exact ⟨s, rfl, .refl h⟩
  | cons i prog ih =>
    obtain ⟨u, hu, hran, -, -⟩ := exec_of_idle i s h
    obtain ⟨t, ht, hrest⟩ := ih hran.idle
    rw [hran.params, hran.lines, ← linesAfter_append] at hrest
    exact ⟨t, by rw [runAll, hu]; exact ht, hran.trans hrest⟩

theorem drain_trace (s : State) : s.trace <+: (drain s).trace := by
  unfold drain
  split
  · rw [complete_trace, runMicros_trace]
    exact List.prefix_append _ _
  · exact List.prefix_rfl

theorem drain_cfg (s : State) : (drain s).cfg = s.cfg := by
  unfold drain
  split
  · rw [complete_cfg, runMicros_cfg]
  · rfl

theorem exec_extends {i : Instr} {s t : State} (h : exec i s = .next t) : s.trace <+: t.trace ∧ t.cfg = s.cfg := by
  rcases exec_next_cases h with ⟨-, rfl⟩ | ⟨-, hran⟩
  · exact ⟨List.prefix_rfl, rfl⟩
  · exact ⟨hran.trace ▸ List.prefix_append _ _, hran.params⟩

/-- Settles O46: `drain` and `exec` append to the trace, and nothing else is left for a step without reset. -/
theorem stepOnlyExtendsTheTrace : Obligations.StepOnlyExtendsTheTrace := by
  intro s t hh h
  rcases step_cases s t h with ⟨rest, hreset, -⟩ | ⟨-, -, rfl⟩ | ⟨w, rest, -, -, hexec⟩ | ⟨-, -, rfl⟩
  · exact absurd hreset (hh rest)
  · exact ⟨drain_trace s, drain_cfg s⟩
  · exact exec_extends (s := { s with host := rest }) hexec
  · exact ⟨List.prefix_rfl, rfl⟩

/-- The step that takes one word off the host's list of an idle block. -/
theorem step_present {s : State} {w : CommandWord} {moves : List HostMove} (hb : s.busy = false)
    (hh : s.host = .present w :: moves) :
    ∃ t, step s = .next t ∧ t.busy = false ∧ t.host = moves ∧ t.cfg = s.cfg ∧
      t.trace = s.trace ++ (wordList s.cfg w).map MicroOp.event := by
  obtain ⟨t, ht, hran⟩ := exec_ranTo (decode w) (s := { s with host := moves }) hb
  refine ⟨t, (step_of_idle hb hh).trans ht, hran.idle, hran.host, hran.params, ?_⟩
  rw [hran.trace, ← wordList_eq]

theorem run_succ_of_next {M : Host.Core} {s t : M.State} (h : M.step s = .next t) (k : Nat) :
    M.run (k + 1) s = M.run k t := by
  rw [Host.Core.run, h]

/-- Settles O47, by induction on the words presented: each step takes one off the list and leaves the block idle. -/
theorem programsRunInOrder : Obligations.ProgramsRunInOrder := by
  intro ws rest s hb hh
  induction ws generalizing s with
  | nil => exact ⟨s, rfl, hb, hh, rfl, (List.append_nil _).symm⟩
  | cons w ws ih =>
    obtain ⟨u, hu, hidle, hhost, hcfg, htrace⟩ := step_present hb hh
    obtain ⟨t, ht, htidle, hthost, htcfg, httrace⟩ := ih u hidle hhost
    refine ⟨t, (run_succ_of_next (M := Sys2Proof.core) hu ws.length).trans ht, htidle, hthost, htcfg.trans hcfg, ?_⟩
    rw [httrace, htrace, hcfg, List.append_assoc, List.flatMap_cons]

/-! ### Idempotency (R56) -/

theorem endLines_endLines (l : Lines) (i : Instr) : endLines (endLines l i) i = endLines l i := by
  cases i <;> rfl

/-- Settles O20: the end lines of an operation are fixed by issuing it again. -/
theorem repeatingOnlyGrowsTheTrace : Obligations.RepeatingOnlyGrowsTheTrace := by
  intro i s t u hs hst htu
  rcases exec_next_cases hst with ⟨hb, -⟩ | ⟨-, first⟩
  · exact absurd (hb.symm.trans hs) (by decide)
  rcases exec_next_cases htu with ⟨hb, -⟩ | ⟨-, second⟩
  · exact absurd (hb.symm.trans first.idle) (by decide)
  refine ⟨?_, second.idle.trans first.idle.symm, second.params, second.host, (exec_extends htu).1⟩
  rw [second.lines, first.lines, endLines_endLines]

/-! ### The symbols of a trace, event by event (R59, R104) -/

theorem symbolBetween_self (p : Level × Level) : symbolBetween p p = none := by
  rcases p with ⟨_ | _, _ | _⟩ <;> rfl

/-- An event adds the symbol of its own change; a settle delay changes no level and adds none. -/
theorem symbolsFrom_cons (l : Lines) (e : Event) (es : List Event) :
    symbolsFrom l (e :: es) =
      (symbolBetween l.own (e.onLines l).own).toList ++ symbolsFrom (e.onLines l) es := by
  cases e with
  | settle => rw [Event.onLines, symbolBetween_self]; rfl
  | dir | drive => rfl

theorem symbolsFrom_append (l : Lines) (es fs : List Event) :
    symbolsFrom l (es ++ fs) = symbolsFrom l es ++ symbolsFrom (replay es l) fs := by
  induction es generalizing l with
  | nil => rfl
  | cons e es ih =>
    rw [List.cons_append, symbolsFrom_cons, symbolsFrom_cons, ih, List.append_assoc]
    rfl

theorem symbols_append (es fs : List Event) :
    symbols (es ++ fs) = symbols es ++ symbolsFrom (replay es Lines.reset) fs :=
  symbolsFrom_append Lines.reset es fs

theorem replay_map_event (ms : List MicroOp) (l : Lines) : replay (ms.map MicroOp.event) l = linesAfter ms l := by
  induction ms generalizing l with
  | nil => rfl
  | cons m ms ih =>
    rw [linesAfter_cons, ← event_onLines, ← ih]
    rfl

theorem symbolsFrom_events_append (l : Lines) (ms ns : List MicroOp) :
    symbolsFrom l ((ms ++ ns).map MicroOp.event) =
      symbolsFrom l (ms.map MicroOp.event) ++ symbolsFrom (linesAfter ms l) (ns.map MicroOp.event) := by
  rw [List.map_append, symbolsFrom_append, replay_map_event]

theorem symbolsFrom_startList : symbolsFrom (Lines.driven true true) (startList.map MicroOp.event) = [.start] := rfl

theorem symbolsFrom_stopList (d : Level) :
    symbolsFrom (Lines.driven true d) (stopList.map MicroOp.event) = [.bit false, .stop] := by
  cases d <;> rfl

theorem symbolsFrom_cell (d v : Level) :
    symbolsFrom (Lines.driven true d) ((cell v).map MicroOp.event) = [.bit v] := by
  cases d <;> cases v <;> rfl

theorem symbolsFrom_cells (d : Level) (vs : List Level) :
    symbolsFrom (Lines.driven true d) ((vs.flatMap cell).map MicroOp.event) = vs.map .bit := by
  induction vs generalizing d with
  | nil => rfl
  | cons v vs ih =>
    have hend : linesAfter (cell v) (Lines.driven true d) = Lines.driven true v := linesAfter_cell v _
    rw [List.flatMap_cons, symbolsFrom_events_append, symbolsFrom_cell, hend, ih]
    rfl

/-! ### The wire under an environment that keeps off (R59) -/

/-- Level pairs that agree in everything a symbol is made of: the clock, and data while the clock is high. -/
def SameWhenHigh (p q : Level × Level) : Prop := p.1 = q.1 ∧ (p.1 = true → p.2 = q.2)

theorem symbolBetween_clock_low (p : Level × Level) (d : Level) : symbolBetween p (false, d) = none := by
  rcases p with ⟨_ | _, _ | _⟩ <;> rfl

theorem symbolBetween_congr {p p' q q' : Level × Level} (hp : SameWhenHigh p p') (hq : SameWhenHigh q q') :
    symbolBetween p q = symbolBetween p' q' := by
  obtain ⟨c, d⟩ := p
  obtain ⟨c', d'⟩ := q
  obtain ⟨_, e⟩ := p'
  obtain ⟨_, e'⟩ := q'
  obtain ⟨rfl : c = _, hd : c = true → d = e⟩ := hp
  obtain ⟨rfl : c' = _, hd' : c' = true → d' = e'⟩ := hq
  cases c' with
  | false => rw [symbolBetween_clock_low, symbolBetween_clock_low]
  | true =>
    rw [← hd' rfl]
    cases c with
    | true => rw [← hd rfl]
    | false => rfl

theorem symbolsOfLevels_congr {ps qs : List (Level × Level)} (h : List.Forall₂ SameWhenHigh ps qs) :
    symbolsOfLevels ps = symbolsOfLevels qs := by
  induction h with
  | nil => rfl
  | cons hp hps ih =>
    cases hps with
    | nil => rfl
    | cons hq _ => rw [symbolsOfLevels, symbolsOfLevels, symbolBetween_congr hp hq, ih]

/-- In both pad styles a line that the block holds low is low, and the wire follows the block where the environment lets
go. -/
theorem wireLevel_eq_ownLevel (style : PinStyle) (d : Direction) (v env : Level) (line : Line) (n : Nat)
    (h : ownLevel d v = true → env = true) : wireLevel (padOutput style d v) env line n = ownLevel d v := by
  cases style with
  | openDrain =>
    rw [wireLevel_openDrain, Bool.and_eq_left_iff_imp]
    exact h
  | pushPull =>
    rw [wireLevel_pushPull (fun hd hv => h (by rw [hd, hv]; rfl)), Bool.and_eq_left_iff_imp]
    exact h

theorem wires_sameWhenHigh (style : PinStyle) (l : Lines) {env : Env} (n : Nat) (hscl : env.scl = true)
    (hsda : l.own.1 = true → l.own.2 = true → env.sda = true) : SameWhenHigh (l.wires style env n) l.own := by
  have hclock : (l.wires style env n).1 = l.own.1 := wireLevel_eq_ownLevel _ _ _ _ _ _ fun _ => hscl
  exact ⟨hclock, fun h => wireLevel_eq_ownLevel _ _ _ _ _ _ (hsda (hclock ▸ h))⟩

theorem wireSamples_sameWhenHigh (style : PinStyle) (env : Nat → Env) (ls : List Lines) (n : Nat)
    (h : ∀ (k : Nat) (l : Lines), ls[k]? = some l → SameWhenHigh (l.wires style (env (n + k)) (n + k)) l.own) :
    List.Forall₂ SameWhenHigh (wireSamples style env n ls) (ls.map Lines.own) := by
  induction ls generalizing n with
  | nil => exact .nil
  | cons l ls ih =>
    refine .cons (h 0 l rfl) (ih (n + 1) fun k l' hl' => ?_)
    rw [Nat.add_assoc, Nat.add_comm 1]
    exact h (k + 1) l' hl'

theorem wireSymbols_of_envKeepsOff (style : PinStyle) (env : Nat → Env) (es : List Event) (h : EnvKeepsOff env es) :
    wireSymbols style env es = symbols es := by
  refine symbolsOfLevels_congr (wireSamples_sameWhenHigh style env (lineStates es) 0 fun k l hl => ?_)
  rw [Nat.zero_add]
  exact wires_sameWhenHigh style l k (h k).1 ((h k).2 l hl)

/-! ### Acknowledge slots (R60, R61, R122) -/

/-- The marks of the samples of a list: one for each micro-operation that is no settle delay. -/
def slotSamples (ms : List MicroOp) (marks : List Bool) : List Bool :=
  (ms.zip marks).filterMap fun x => if x.1 = .t then none else some x.2

theorem sampleMarks_eq (c : Config) (prog : List Instr) :
    sampleMarks c prog = false :: prog.flatMap fun i => slotSamples (microOps c i) (slotMarks i) := rfl

/-- In an acknowledge slot the block never has both lines high. -/
def LowIfMarked (l : Lines) (mark : Bool) : Prop := mark = true → l.own.1 = true → l.own.2 = false

theorem lineStatesFrom_append (l : Lines) (es fs : List Event) :
    lineStatesFrom l (es ++ fs) = lineStatesFrom l es ++ lineStatesFrom (replay es l) fs := by
  induction es generalizing l with
  | nil => rfl
  | cons e es ih =>
    cases e with
    | settle => exact ih l
    | dir | drive => exact congrArg (_ :: ·) (ih _)

theorem lineStatesFrom_events_append (l : Lines) (ms ns : List MicroOp) :
    lineStatesFrom l ((ms ++ ns).map MicroOp.event) =
      lineStatesFrom l (ms.map MicroOp.event) ++ lineStatesFrom (linesAfter ms l) (ns.map MicroOp.event) := by
  rw [List.map_append, lineStatesFrom_append, replay_map_event]

theorem slotSamples_append {ms : List MicroOp} {marks : List Bool} (h : ms.length = marks.length) (ns : List MicroOp)
    (marks' : List Bool) :
    slotSamples (ms ++ ns) (marks ++ marks') = slotSamples ms marks ++ slotSamples ns marks' := by
  rw [slotSamples, List.zip_append h, List.filterMap_append]
  rfl

/-- Outside a slot nothing is asked of the lines. -/
theorem lowIfMarked_unmarked (l : Lines) (ms : List MicroOp) :
    List.Forall₂ LowIfMarked (lineStatesFrom l (ms.map MicroOp.event)) (slotSamples ms (unmarked ms)) := by
  induction ms generalizing l with
  | nil => exact .nil
  | cons m ms ih =>
    cases m with
    | t => exact ih l
    | dirc | dird | c0 | c1 | d0 | d1 => exact .cons nofun (ih _)

/-- Both lines are driven. -/
def Lines.IsDriven (l : Lines) : Prop := l.sclDir = .output ∧ l.sdaDir = .output

theorem linesAfter_isDriven (ms : List MicroOp) {l : Lines} (h : l.IsDriven) : (linesAfter ms l).IsDriven :=
  ⟨(linesAfter_keepsDriven ms l).1 h.1, (linesAfter_keepsDriven ms l).2 h.2⟩

/-- The marks of a list fit it, and where they are set driven lines are never both high. -/
structure SlotsLow (ms : List MicroOp) (marks : List Bool) : Prop where
  length : ms.length = marks.length
  low : ∀ l : Lines, l.IsDriven →
    List.Forall₂ LowIfMarked (lineStatesFrom l (ms.map MicroOp.event)) (slotSamples ms marks)

theorem SlotsLow.append {ms ns : List MicroOp} {marks marks' : List Bool} (h : SlotsLow ms marks)
    (h' : SlotsLow ns marks') : SlotsLow (ms ++ ns) (marks ++ marks') where
  length := by rw [List.length_append, List.length_append, h.length, h'.length]
  low l hl := by
    rw [lineStatesFrom_events_append, slotSamples_append h.length]
    exact List.rel_append (h.low l hl) (h'.low _ (linesAfter_isDriven ms hl))

theorem slotsLow_unmarked (ms : List MicroOp) : SlotsLow ms (unmarked ms) where
  length := (unmarked_length ms).symm
  low l _ := lowIfMarked_unmarked l ms

/-- The slot `C0 D0 T C1 T` has the clock low until data is low. -/
theorem slotsLow_acknowledge : SlotsLow (cell false) (List.replicate 5 true) where
  length := rfl
  low := by
    rintro ⟨scl, sda, _, _⟩ ⟨rfl, rfl⟩
    exact .cons nofun (.cons nofun (.cons (fun _ _ => rfl) .nil))

theorem slotsLow_byteList (x : Byte) : SlotsLow (byteList x) byteMarks :=
  (slotsLow_unmarked (((List.range 8).map x.getLsbD).flatMap cell)).append slotsLow_acknowledge

theorem slotsLow_cmdList (a : Byte) :
    SlotsLow (cmdList a) (unmarked startList ++ byteMarks ++ unmarked stopList) :=
  ((slotsLow_unmarked _).append (slotsLow_byteList a)).append (slotsLow_unmarked _)

theorem slotsLow_microOps (c : Config) (i : Instr) : SlotsLow (microOps c i) (slotMarks i) := by
  cases i with
  | setup | start | stop | reserved6 | reserved7 => exact slotsLow_unmarked _
  | sendb a => exact slotsLow_byteList a
  | cmd a => exact slotsLow_cmdList a
  | wrat a b =>
    exact (((((slotsLow_cmdList c.cmdDataFixed).append (slotsLow_unmarked _)).append (slotsLow_byteList _)).append
      (slotsLow_byteList b)).append (slotsLow_unmarked _)).append (slotsLow_unmarked _)

theorem program_lowIfMarked (c : Config) (prog : List Instr) {l : Lines} (h : l.IsDriven) :
    List.Forall₂ LowIfMarked (lineStatesFrom l ((prog.flatMap (microOps c)).map MicroOp.event))
      (prog.flatMap fun i => slotSamples (microOps c i) (slotMarks i)) := by
  induction prog generalizing l with
  | nil => exact .nil
  | cons i prog ih =>
    rw [List.flatMap_cons, List.flatMap_cons, lineStatesFrom_events_append]
    exact List.rel_append ((slotsLow_microOps c i).low l h) (ih (linesAfter_isDriven _ h))

/-- From reset the lines are released until `SETUP`, which has no slot, drives them. -/
theorem lineStates_lowIfMarked (c : Config) (prog : List Instr) :
    List.Forall₂ LowIfMarked (lineStates (((Instr.setup :: prog).flatMap (microOps c)).map MicroOp.event))
      (sampleMarks c (.setup :: prog)) := by
  rw [lineStates, sampleMarks_eq, List.flatMap_cons, List.flatMap_cons, lineStatesFrom_events_append]
  exact .cons nofun
    (List.rel_append (lowIfMarked_unmarked Lines.reset setupList) (program_lowIfMarked c prog ⟨rfl, rfl⟩))

theorem envKeepsOff_of_envKeepsToSlots {c : Config} {prog : List Instr} {env : Nat → Env} {es : List Event}
    (h : List.Forall₂ LowIfMarked (lineStates es) (sampleMarks c prog)) (henv : EnvKeepsToSlots c prog env) :
    EnvKeepsOff env es := by
  refine fun n => ⟨(henv n).1, fun l hl hscl hsda => (henv n).2 fun hmark => ?_⟩
  obtain ⟨hn, rfl⟩ := List.getElem?_eq_some_iff.1 hl
  obtain ⟨hn', hmark⟩ := List.getElem?_eq_some_iff.1 hmark
  have hlow := h.get hn hn' hmark hscl
  exact absurd (hsda.symm.trans hlow) (by decide)

/-- Settles O39: R60's premise keeps the environment off, since in a slot the clock is low or the block holds data low. -/
theorem theWireCarriesTheSymbols : Obligations.TheWireCarriesTheSymbols := by
  refine ⟨wireSymbols_of_envKeepsOff, fun c prog => ?_⟩
  obtain ⟨t, ht, hran⟩ := runAll_ranTo (.setup :: prog) (s := State.resetWith c) rfl
  have htrace : t.trace = ((Instr.setup :: prog).flatMap (microOps c)).map MicroOp.event := hran.trace
  refine ⟨t, ht, fun style env henv => wireSymbols_of_envKeepsOff style env _ ?_⟩
  rw [htrace]
  exact envKeepsOff_of_envKeepsToSlots (lineStates_lowIfMarked c prog) henv

/-! ### A frame as micro-operations and as symbols (R66, R121, R131, R132) -/

/-- The nine bits of `byte(x)`: the byte, bit 0 first, and the acknowledge slot (R121, R122). -/
def groupBits (x : Byte) : List Level := (List.range 8).map x.getLsbD ++ [false]

theorem sendbList_eq_cells (x : Byte) : sendbList x = (groupBits x).flatMap cell := rfl

/-- The list of a frame: `START`, one `SENDB` for each byte, `STOP`. -/
def frameList (xs : List Byte) : List MicroOp := startList ++ xs.flatMap sendbList ++ stopList

theorem cmdList_eq_frameList (a : Byte) : cmdList a = frameList [a] := by
  simp [cmdList, frameList]

theorem wratList_eq_frameLists (c : Config) (a b : Byte) :
    wratList c a b = frameList [c.cmdDataFixed] ++ frameList [addressByte c a, b] ++ [.t] := by
  rw [wratList, cmdList_eq_frameList]
  simp [frameList]

theorem handMade_eq_frameList (c : Config) (xs : List Byte) :
    (Instr.start :: (xs.map .sendb ++ [.stop])).flatMap (microOps c) = frameList xs := by
  simp [frameList, microOps, List.flatMap_map]

theorem linesAfter_sendbLists (xs : List Byte) :
    linesAfter (xs.flatMap sendbList) (Lines.driven true false) = Lines.driven true false := by
  induction xs with
  | nil => rfl
  | cons x xs ih =>
    rw [List.flatMap_cons, linesAfter_append, sendbList, linesAfter_byteList]
    exact ih

theorem linesAfter_frameList (xs : List Byte) :
    linesAfter (frameList xs) (Lines.driven true true) = Lines.driven true true := by
  have hstart : linesAfter startList (Lines.driven true true) = Lines.driven true false := rfl
  rw [frameList, linesAfter_append, linesAfter_append, hstart, linesAfter_sendbLists, linesAfter_stopList]
  rfl

/-- The symbols of a frame: `S`, the bits of its groups, and the rising edge and `P` of the `STOP` (R104). -/
def frameSymbols (xs : List Byte) : List Symbol :=
  .start :: (xs.flatMap groupBits).map .bit ++ [.bit false, .stop]

theorem symbolsFrom_frameList (xs : List Byte) :
    symbolsFrom (Lines.driven true true) ((frameList xs).map MicroOp.event) = frameSymbols xs := by
  have hstart : linesAfter startList (Lines.driven true true) = Lines.driven true false := rfl
  have hcells : xs.flatMap sendbList = (xs.flatMap groupBits).flatMap cell :=
    (List.flatMap_assoc (f := groupBits) (g := cell)).symm
  rw [frameList, symbolsFrom_events_append, symbolsFrom_events_append, linesAfter_append, symbolsFrom_startList, hstart,
    linesAfter_sendbLists, symbolsFrom_stopList, hcells, symbolsFrom_cells]
  rfl

/-! ### The reader of frames (R66) -/

/-- `Σ bit_i · 2^i` over the first `k` bits of `n`. -/
theorem foldr_testBit (k n : Nat) :
    ((List.range k).map n.testBit).foldr (fun v m => v.toNat + 2 * m) 0 = n % 2 ^ k := by
  induction k generalizing n with
  | zero => simp [Nat.mod_one]
  | succ k ih =>
    have hshift : n.testBit ∘ Nat.succ = (n / 2).testBit := funext fun i => Nat.testBit_succ n i
    rw [List.range_succ_eq_map, List.map_cons, List.map_map, hshift, List.foldr_cons, ih, Nat.toNat_testBit, pow_succ',
      Nat.mod_mul, pow_zero, Nat.div_one]

theorem byteOfBits_getLsbD (x : Byte) : byteOfBits ((List.range 8).map x.getLsbD) = x := by
  have hbits : x.getLsbD = x.toNat.testBit := rfl
  rw [byteOfBits, hbits, foldr_testBit, Nat.mod_eq_of_lt x.isLt, BitVec.ofNat_toNat, BitVec.setWidth_eq]

theorem readSymbols_append (ss rs : List Symbol) (r : FrameReader) :
    readSymbols (ss ++ rs) r = readSymbols rs (readSymbols ss r) := by
  simp [readSymbols]

theorem readSymbols_cons (y : Symbol) (ss : List Symbol) (r : FrameReader) :
    readSymbols (y :: ss) r = readSymbols ss (r.read y) := rfl

theorem read_bit (items : List FrameItem) (groups : List (Byte × Level)) (bits : List Level) (v : Level) :
    FrameReader.read ⟨items, some (groups, bits)⟩ (.bit v) = ⟨items, some (takeBit groups bits v)⟩ := rfl

/-- Bits that do not fill the group that is open. -/
theorem readSymbols_bits (vs : List Level) (items : List FrameItem) (groups : List (Byte × Level)) (bits : List Level)
    (h : bits.length + vs.length ≤ 8) :
    readSymbols (vs.map .bit) ⟨items, some (groups, bits)⟩ = ⟨items, some (groups, bits ++ vs)⟩ := by
  induction vs generalizing bits with
  | nil => simp [readSymbols]
  | cons v vs ih =>
    rw [List.length_cons] at h
    have htake : takeBit groups bits v = (groups, bits ++ [v]) := if_neg (by omega)
    rw [List.map_cons, readSymbols_cons, read_bit, htake, ih _ (by simp; omega), List.append_assoc]
    rfl

theorem readSymbols_group (x : Byte) (items : List FrameItem) (groups : List (Byte × Level)) :
    readSymbols ((groupBits x).map .bit) ⟨items, some (groups, [])⟩ =
      ⟨items, some (groups ++ [(x, false)], [])⟩ := by
  have hninth : takeBit groups ((List.range 8).map x.getLsbD) false = (groups ++ [(x, false)], []) := by
    rw [takeBit, if_pos (by simp), byteOfBits_getLsbD]
  rw [groupBits, List.map_append, readSymbols_append, readSymbols_bits _ _ _ _ (by simp), List.nil_append,
    List.map_singleton, readSymbols_cons, read_bit, hninth]
  rfl

theorem readSymbols_groups (xs : List Byte) (items : List FrameItem) (groups : List (Byte × Level)) :
    readSymbols ((xs.flatMap groupBits).map .bit) ⟨items, some (groups, [])⟩ =
      ⟨items, some (groups ++ xs.map (fun x => (x, false)), [])⟩ := by
  induction xs generalizing groups with
  | nil => simp [readSymbols]
  | cons x xs ih =>
    rw [List.flatMap_cons, List.map_append, readSymbols_append, readSymbols_group, ih, List.append_assoc]
    rfl

theorem readSymbols_frameSymbols (xs : List Byte) (items : List FrameItem) :
    readSymbols (frameSymbols xs) ⟨items, none⟩ = ⟨items ++ [sentFrame xs], none⟩ := by
  have hstart : FrameReader.read ⟨items, none⟩ .start = ⟨items, some ([], [])⟩ := rfl
  rw [frameSymbols, List.cons_append, readSymbols_cons, hstart, readSymbols_append, readSymbols_groups, List.nil_append]
  rfl

theorem frames_eq_finish (es : List Event) : frames es = (frameReader es).finish := rfl

/-! ### Lists that take the bus from between frames to between frames (R39, R66) -/

/-- From a bus idle between frames the list `ms` adds `items` to the frames and leaves the bus idle between frames. -/
structure SendsItems (ms : List MicroOp) (items : List FrameItem) : Prop where
  lines : linesAfter ms (Lines.driven true true) = Lines.driven true true
  read : ∀ before, readSymbols (symbolsFrom (Lines.driven true true) (ms.map MicroOp.event)) ⟨before, none⟩ =
    ⟨before ++ items, none⟩

theorem SendsItems.append {ms ns : List MicroOp} {xs ys : List FrameItem} (h : SendsItems ms xs)
    (h' : SendsItems ns ys) : SendsItems (ms ++ ns) (xs ++ ys) where
  lines := by rw [linesAfter_append, h.lines, h'.lines]
  read before := by
    rw [symbolsFrom_events_append, readSymbols_append, h.lines, h.read, h'.read, List.append_assoc]

theorem sendsItems_settle : SendsItems [.t] [] where
  lines := rfl
  read before := by rw [List.append_nil]; rfl

theorem sendsItems_frameList (xs : List Byte) : SendsItems (frameList xs) [sentFrame xs] where
  lines := linesAfter_frameList xs
  read before := by rw [symbolsFrom_frameList, readSymbols_frameSymbols]

theorem sendsItems_wratList (c : Config) (a b : Byte) :
    SendsItems (wratList c a b) [sentFrame [c.cmdDataFixed], sentFrame [addressByte c a, b]] := by
  rw [wratList_eq_frameLists]
  exact ((sendsItems_frameList _).append (sendsItems_frameList _)).append sendsItems_settle

/-- A run of such a list from between frames. -/
theorem State.BetweenFrames.of_ranTo {s t : State} {ms : List MicroOp} {items : List FrameItem}
    (h : s.BetweenFrames) (hms : SendsItems ms items) (ht : s.RanTo ms (linesAfter ms s.lines) t) :
    t.BetweenFrames ∧ frames t.trace = frames s.trace ++ items := by
  have hreader : frameReader s.trace = ⟨(frameReader s.trace).items, none⟩ := by rw [← h.closed]
  have hread : frameReader t.trace = ⟨(frameReader s.trace).items ++ items, none⟩ := by
    rw [← hms.read, ← hreader, ht.trace, frameReader, symbols_append, readSymbols_append, h.replays, h.lines]
    rfl
  have hframes : frames s.trace = (frameReader s.trace).items := by
    rw [frames_eq_finish, hreader]
    rfl
  refine ⟨⟨ht.idle, by rw [ht.lines, h.lines, hms.lines], ?_, by rw [hread]⟩, ?_⟩
  · rw [ht.trace, replay_append, h.replays, replay_map_event, ht.lines]
  · rw [frames_eq_finish, hread, hframes]
    rfl

/-- Settles O44: the whole program is the list of one frame. -/
theorem handMadeFrameCarriesItsBytes : Obligations.HandMadeFrameCarriesItsBytes := by
  intro xs s h
  obtain ⟨t, ht, hran⟩ := runAll_ranTo (.start :: (xs.map .sendb ++ [.stop])) h.idle
  rw [handMade_eq_frameList] at hran
  exact ⟨t, ht, h.of_ranTo (sendsItems_frameList xs) hran⟩

/-! ### The reference slave (R57, R58, R62) -/

/-- The slave has seen the items that a run adds. -/
theorem slave_eq_reactAll {s t : State} {items : List FrameItem} (hcfg : t.cfg = s.cfg)
    (hframes : frames t.trace = frames s.trace ++ items) : t.slave = s.slave.reactAll s.cfg items := by
  rw [State.slave, hcfg, hframes, Slave.reactAll, List.foldl_append]
  rfl

/-- With distinct classes exactly the row of the fixed-address mode applies. -/
theorem command_cmdDataFixed {c : Config} (h : ClassesDistinct c) (s : Slave) :
    s.command c c.cmdDataFixed = { s with mode := some .fixed } := by
  obtain ⟨hauto, hdisplay, -⟩ := h
  have hrows : (commandRows c c.cmdDataFixed s).filter Prod.fst = [(true, { s with mode := some .fixed })] := by
    rw [commandRows, beq_self_eq_true, beq_eq_false_iff_ne.2 hauto, beq_eq_false_iff_ne.2 hdisplay]
    rfl
  rw [Slave.command, hrows]

/-- The OR of disjoint bits is undone by masking (R9, R81). -/
theorem or_and_not_of_disjoint {w : Nat} {x y : BitVec w} (h : x &&& y = 0) : (x ||| y) &&& ~~~x = y := by
  ext i hi
  have hbit : (x[i] && y[i]) = false := by
    rw [← BitVec.getElem_and, h]
    simp
  simp only [BitVec.getElem_and, BitVec.getElem_or, BitVec.getElem_not]
  cases hx : x[i] <;> simp_all

theorem addressByte_injective {c : Config} {a a' : Byte} (h : c.cmdAddr &&& a = 0) (h' : c.cmdAddr &&& a' = 0)
    (heq : addressByte c a = addressByte c a') : a = a' := by
  rw [← or_and_not_of_disjoint h, ← or_and_not_of_disjoint h']
  exact congrArg (· &&& ~~~c.cmdAddr) heq

theorem selectedPositions_addressByte {c : Config} (hc : c.wf = true) {a : Byte} (ha : a.toNat < c.digitCount) :
    selectedPositions c (addressByte c a) = [a.toNat] := by
  obtain ⟨-, hpos, -, -⟩ := (config_wf_iff c).1 hc
  have hdisjoint : c.cmdAddr &&& a = 0 := by
    have := (hpos _ ha).2
    rwa [BitVec.ofNat_toNat, BitVec.setWidth_eq] at this
  have hselects : ∀ p ∈ List.range c.digitCount,
      (addressByte c a == c.cmdAddr ||| BitVec.ofNat 8 p) = (p == a.toNat) := by
    intro p hp
    obtain ⟨hp256, hp0⟩ := hpos p (List.mem_range.1 hp)
    rw [Bool.eq_iff_iff, beq_iff_eq, beq_iff_eq]
    constructor
    · intro heq
      rw [addressByte_injective hdisjoint hp0 heq, BitVec.toNat_ofNat, Nat.mod_eq_of_lt hp256]
    · rintro rfl
      rw [BitVec.ofNat_toNat, BitVec.setWidth_eq]
      rfl
  rw [selectedPositions, List.filter_congr hselects, List.filter_beq,
    List.count_eq_one_of_mem List.nodup_range (List.mem_range.2 ha)]
  rfl

theorem data_addressByte {c : Config} (hc : c.wf = true) {a : Byte} (ha : a.toNat < c.digitCount) (d : Byte)
    (s : Slave) : s.data c (addressByte c a) d = { s with disp := s.disp.write a.toNat d } := by
  rw [Slave.data, selectedPositions_addressByte hc ha]

/-- The two frames of `WRAT` at a legal position (R57, R80): the mode, then the byte in its place. -/
theorem reactAll_wrat {c : Config} (hc : c.wf = true) (hd : ClassesDistinct c) {a : Byte} (ha : a.toNat < c.digitCount)
    (b : Byte) (s : Slave) :
    s.reactAll c [sentFrame [c.cmdDataFixed], sentFrame [addressByte c a, b]] =
      { s with mode := some .fixed, disp := s.disp.write a.toNat b } := by
  change (s.command c c.cmdDataFixed).data c (addressByte c a) b = _
  rw [command_cmdDataFixed hd, data_addressByte hc ha]

/-- Settles O49: the slave after the two frames, and the display memory's laws of reading after a write. -/
theorem wratWritesTheReferenceDisplay : Obligations.WratWritesTheReferenceDisplay := by
  intro a b s h hc hd ha
  obtain ⟨t, ht, hran, -, -⟩ := exec_of_idle (.wrat a b) s h.idle
  obtain ⟨-, hframes⟩ := h.of_ranTo (sendsItems_wratList s.cfg a b) hran
  have hslave : t.slave = { s.slave with mode := some .fixed, disp := s.slave.disp.write a.toNat b } := by
    rw [slave_eq_reactAll hran.params hframes, reactAll_wrat hc hd ha]
  refine ⟨t, ht, ?_⟩
  rw [hslave]
  exact ⟨memory_read_write_same _ _ _, fun q hq => memory_read_write_other _ _ _ _ hq, rfl, rfl, rfl⟩

end Sys2Proof.Machine
end

section
/-! Proofs for 30_encoding.md: the command word (R71 to R74, R84), the frames of the composites
(R79, R80), the address byte (R81), the totals of the lists (R87), and the framing grammar (R88). -/

namespace Sys2Proof.Machine

/-! ### The fields of a command word (R71) -/

theorem opField_append (op : BitVec 3) (a b : Byte) : opField (op ++ a ++ b) = op := by
  rw [opField, BitVec.extractLsb'_append_eq_of_le (by decide)]
  exact BitVec.extractLsb'_append_eq_left

theorem aField_append (op : BitVec 3) (a b : Byte) : aField (op ++ a ++ b) = a := by
  rw [aField, BitVec.extractLsb'_append_eq_of_le (by decide)]
  exact BitVec.extractLsb'_append_eq_right

theorem bField_append (op : BitVec 3) (a b : Byte) : bField (op ++ a ++ b) = b :=
  BitVec.extractLsb'_append_eq_right

theorem opField_encode (i : Instr) : opField (encode i) = i.opcode := opField_append _ _ _

theorem aField_encode (i : Instr) : aField (encode i) = i.aOperand := aField_append _ _ _

theorem bField_encode (i : Instr) : bField (encode i) = i.bOperand := bField_append _ _ _

/-- A command word is its three fields. -/
theorem fields_append (w : CommandWord) : opField w ++ aField w ++ bField w = w := by
  have hop : opField w ++ aField w = w.extractLsb' 8 11 :=
    BitVec.extractLsb'_append_extractLsb'_eq_extractLsb' rfl
  have hword : w.extractLsb' 8 11 ++ bField w = w.extractLsb' 0 19 :=
    BitVec.extractLsb'_append_extractLsb'_eq_extractLsb' rfl
  rw [hop, hword, BitVec.extractLsb'_eq_self]

/-! ### The opcode gives the operation, the fields its operands (R72, R73) -/

/-- The operation of the same kind with these operands; what it does not use is dropped (R73). -/
def withOperands (i : Instr) (a b : Byte) : Instr :=
  match i with
  | .sendb _ => .sendb a
  | .cmd _ => .cmd a
  | .wrat _ _ => .wrat a b
  | .setup | .start | .stop | .reserved6 | .reserved7 => i

theorem withOperands_own (i : Instr) : withOperands i i.aOperand i.bOperand = i := by
  cases i <;> rfl

/-- Decoding by the opcode: the operation that has it, with the fields of the word for operands. -/
theorem decode_of_opcode {w : CommandWord} (i : Instr) (h : opField w = i.opcode) :
    decode w = withOperands i (aField w) (bField w) := by
  rw [decode, h]
  cases i <;> rfl

theorem opcode_decode (w : CommandWord) : (decode w).opcode = opField w := by
  have h := (opField w).isLt
  apply BitVec.eq_of_toNat_eq
  rw [decode]
  generalize (opField w).toNat = n at h ⊢
  interval_cases n <;> rfl

theorem decode_encode (i : Instr) : decode (encode i) = i := by
  rw [decode_of_opcode i (opField_encode i), aField_encode, bField_encode, withOperands_own]

theorem commandWord?_toNat (w : CommandWord) : commandWord? w.toNat = some w := by
  rw [commandWord?, if_pos w.isLt, BitVec.ofNat_toNat, BitVec.setWidth_eq]

theorem decodeTableWord_toNat (nbits : Nat) (w : CommandWord) : decodeTableWord nbits w.toNat = some (decode w) := by
  rw [decodeTableWord, decodeNat, commandWord?_toNat]

/-- Settles O1: the fields of an encoded word are the operation's opcode and operands, and the decoder puts them
together. -/
theorem decodeInvertsEncode : Obligations.DecodeInvertsEncode :=
  fun i nbits => ⟨decode_encode i, by rw [decodeTableWord_toNat, decode_encode]⟩

/-! ### The opcode table (R72) -/

/-- The match value `op << 16` of an opcode, a command word with zero operands. -/
def matchWord (op : BitVec 3) : CommandWord := op ++ (0 : Byte) ++ (0 : Byte)

theorem matchWord_toNat : ∀ op : BitVec 3, (matchWord op).toNat = op.toNat * 2 ^ 16 := by
  decide

theorem and_mask (w : CommandWord) : w &&& 0x70000 = matchWord (opField w) := by
  conv => lhs; rw [← fields_append w]
  exact Laws.EncodesToItsRow.mask_of_fields _ _ _

/-- Exactly one row has the match value of an opcode, and the operation of that opcode names it. -/
theorem opcodeTable_filter_pattern (i : Instr) :
    opcodeTable.filter (fun r => matchWord i.opcode == r.pattern) = [⟨i.mnemonic, 0x70000, matchWord i.opcode⟩] := by
  cases i <;> dsimp only [Instr.opcode, Instr.mnemonic] <;> rfl

theorem opcodeTable_mask : ∀ r ∈ opcodeTable, r.mask = 0x70000 := by
  decide

/-- The one row that selects a word is that of its operation. -/
theorem opcodeTable_filter_selects (w : CommandWord) :
    opcodeTable.filter (fun r => r.selects w) = [⟨(decode w).mnemonic, 0x70000, matchWord (opField w)⟩] := by
  have hselects : ∀ r ∈ opcodeTable, r.selects w = (matchWord (opField w) == r.pattern) := fun r hr => by
    rw [OpcodeRow.selects, opcodeTable_mask r hr, and_mask]
  rw [List.filter_congr hselects, ← opcode_decode, opcodeTable_filter_pattern]

theorem row_mem_opcodeTable (i : Instr) : ⟨i.mnemonic, 0x70000, matchWord i.opcode⟩ ∈ opcodeTable :=
  List.mem_of_mem_filter (opcodeTable_filter_pattern i ▸ List.mem_singleton_self _)

/-- Settles O2: the decoder goes by the opcode, and the rows of the table have the eight opcodes. -/
theorem opcodeSelectsTheOperation : Obligations.OpcodeSelectsTheOperation := by
  refine ⟨fun w => ⟨decode_of_opcode .setup, decode_of_opcode .start, decode_of_opcode .stop,
    decode_of_opcode (.sendb 0), decode_of_opcode (.cmd 0), decode_of_opcode (.wrat 0 0),
    decode_of_opcode .reserved6, decode_of_opcode .reserved7⟩, fun w => ?_, fun i => ?_⟩
  · rw [opcodeTable_filter_selects]
    rfl
  · exact ⟨_, row_mem_opcodeTable i, rfl, rfl, matchWord_toNat i.opcode⟩

/-! ### Unused operand fields (R73) -/

/-- Two words with the opcode of `i` that agree in the operands `i` uses name one operation with one list. -/
theorem decode_wordList_congr {w w' : CommandWord} (c : Config) (i : Instr) (hw : opField w = i.opcode)
    (hw' : opField w' = i.opcode)
    (h : withOperands i (aField w) (bField w) = withOperands i (aField w') (bField w')) :
    decode w = decode w' ∧ wordList c w = wordList c w' := by
  have hdecode : decode w = decode w' := by rw [decode_of_opcode i hw, decode_of_opcode i hw', h]
  exact ⟨hdecode, by rw [wordList_eq, wordList_eq, hdecode]⟩

/-- Settles O3: the decoder keeps only the operands that the operation of the opcode uses. -/
theorem unusedFieldsAreIgnored : Obligations.UnusedFieldsAreIgnored := by
  refine ⟨fun c w w' hop => ⟨?_, ?_⟩, fun w => ⟨decode_of_opcode (.sendb 0), decode_of_opcode (.cmd 0),
    decode_of_opcode (.wrat 0 0)⟩, fun i => ⟨?_, ?_, ?_⟩⟩
  · rintro (h | h | h)
    · exact decode_wordList_congr c .setup h (hop ▸ h) rfl
    · exact decode_wordList_congr c .start h (hop ▸ h) rfl
    · exact decode_wordList_congr c .stop h (hop ▸ h) rfl
  · rintro (h | h) ha
    · exact decode_wordList_congr c (.sendb 0) h (hop ▸ h) (congrArg Instr.sendb ha)
    · exact decode_wordList_congr c (.cmd 0) h (hop ▸ h) (congrArg Instr.cmd ha)
  · rintro (rfl | rfl | rfl) <;> exact ⟨aField_encode _, bField_encode _⟩
  · rintro x (rfl | rfl) <;> exact ⟨aField_encode _, bField_encode _⟩
  · rintro x y rfl
    exact ⟨aField_encode _, bField_encode _⟩

/-! ### Sample words and the reserved opcodes (R74) -/

/-- Settles O4, each word by evaluating the decoder. -/
theorem sampleWordsDecode : Obligations.SampleWordsDecode := by
  unfold Obligations.SampleWordsDecode
  decide

/-- Settles O16: the list of a reserved opcode is empty and its end lines are those it began with. -/
theorem reservedOpcodesDoNothing : Obligations.ReservedOpcodesDoNothing := by
  rintro i s (rfl | rfl) h <;> exact exec_ranTo _ h

/-! ### The frames of the composites (R79, R80) -/

/-- A run from between frames adds the symbols that its list gives from there. -/
theorem State.BetweenFrames.symbols_of_ranTo {s t : State} {ms : List MicroOp} {l : Lines} (h : s.BetweenFrames)
    (ht : s.RanTo ms l t) :
    symbols t.trace = symbols s.trace ++ symbolsFrom (Lines.driven true true) (ms.map MicroOp.event) := by
  rw [ht.trace, symbols_append, h.replays, h.lines]

theorem sendsItems_cmdList (a : Byte) : SendsItems (cmdList a) [sentFrame [a]] :=
  cmdList_eq_frameList a ▸ sendsItems_frameList [a]

theorem symbolsFrom_cmdList (a : Byte) :
    symbolsFrom (Lines.driven true true) ((cmdList a).map MicroOp.event) = frameSymbols [a] := by
  rw [cmdList_eq_frameList, symbolsFrom_frameList]

theorem symbolsFrom_wratList (c : Config) (a b : Byte) :
    symbolsFrom (Lines.driven true true) ((wratList c a b).map MicroOp.event) =
      frameSymbols [c.cmdDataFixed] ++ frameSymbols [addressByte c a, b] := by
  rw [wratList_eq_frameLists, symbolsFrom_events_append, symbolsFrom_events_append, linesAfter_append,
    linesAfter_frameList, linesAfter_frameList, symbolsFrom_frameList, symbolsFrom_frameList]
  exact List.append_nil _

/-- The symbols of a frame of one byte, bit by bit (R79). -/
theorem frameSymbols_singleton (a : Byte) :
    frameSymbols [a] =
      .start :: (List.range 8).map (fun i => Symbol.bit (a.getLsbD i)) ++ [.bit false, .bit false, .stop] := rfl

/-- Settles O42: the list of `CMD` is the list of a frame of one byte. -/
theorem cmdSendsOneFrame : Obligations.CmdSendsOneFrame := by
  intro a s h
  obtain ⟨t, ht, hran, -, -⟩ := exec_of_idle (.cmd a) s h.idle
  obtain ⟨hbetween, hframes⟩ := h.of_ranTo (sendsItems_cmdList a) hran
  refine ⟨t, ht, hbetween, hframes, ?_⟩
  rw [h.symbols_of_ranTo hran, ← frameSymbols_singleton, ← symbolsFrom_cmdList]
  rfl

/-- The last data write of `WRAT`, its settle delay and the extra one (R80). -/
theorem wratList_ends (c : Config) (a b : Byte) : ∃ ms, wratList c a b = ms ++ [.d1, .t, .t] := by
  refine ⟨cmdList c.cmdDataFixed ++ startList ++ sendbList (addressByte c a) ++ sendbList b ++
    [.c0, .t, .d0, .t, .c1, .t], ?_⟩
  rw [wratList, List.append_assoc _ stopList, List.append_assoc _ _ [_, _, _]]
  rfl

/-- Settles O43: the list of `WRAT` is that of two frames and a settle delay. -/
theorem wratSendsTwoFrames : Obligations.WratSendsTwoFrames := by
  intro a b s h
  obtain ⟨t, ht, hran, -, -⟩ := exec_of_idle (.wrat a b) s h.idle
  obtain ⟨hbetween, hframes⟩ := h.of_ranTo (sendsItems_wratList s.cfg a b) hran
  obtain ⟨ms, hms⟩ := wratList_ends s.cfg a b
  refine ⟨t, ht, hbetween, hframes, ms.map MicroOp.event, ?_⟩
  rw [hran.trace, microOps, hms, List.map_append, List.append_assoc]
  rfl

/-! ### The address byte (R81) -/

/-- Settles O9: the first frame and the second `START` are the first 59 + 6 elements, and R9 keeps the bits of a legal
position clear in `CMD_ADDR`. -/
theorem addressByteIsOrAndSum : Obligations.AddressByteIsOrAndSum := by
  intro c a b
  constructor
  · have hbefore : (cmdList c.cmdDataFixed ++ startList).length = 59 + 6 := rfl
    rw [wratList, List.append_assoc, List.append_assoc, List.append_assoc, List.drop_left' hbefore]
    simp [sendbList, addressByte]
  · intro hc ha
    obtain ⟨-, hpos, -, -⟩ := (config_wf_iff c).1 hc
    have hdisjoint := (hpos _ ha).2
    rw [BitVec.ofNat_toNat, BitVec.setWidth_eq] at hdisjoint
    exact (BitVec.add_eq_or_of_and_eq_zero _ _ hdisjoint).symm

/-! ### The totals of the lists (R87) -/

/-- The five totals of R87: the length of a list, its settle delays, its clock, data and direction writes. -/
def totals (ms : List MicroOp) : Nat × Nat × Nat × Nat × Nat :=
  (ms.length, settleCount (ms.map MicroOp.event), driveCount .scl (ms.map MicroOp.event),
    driveCount .sda (ms.map MicroOp.event), dirCount (ms.map MicroOp.event))

@[simp] theorem totals_append (ms ns : List MicroOp) : totals (ms ++ ns) = totals ms + totals ns := by
  simp [totals, settleCount, driveCount, dirCount]

@[simp] theorem totals_setupList : totals setupList = (4, 0, 1, 1, 2) := rfl

@[simp] theorem totals_startList : totals startList = (6, 3, 1, 2, 0) := rfl

@[simp] theorem totals_stopList : totals stopList = (8, 4, 2, 2, 0) := rfl

@[simp] theorem totals_settle : totals [.t] = (1, 1, 0, 0, 0) := rfl

/-- Whatever the bit, a cell has one data write. -/
@[simp] theorem totals_cell (v : Level) : totals (cell v) = (5, 2, 2, 1, 0) := by
  cases v <;> rfl

@[simp] theorem totals_sendbList (a : Byte) : totals (sendbList a) = (45, 18, 18, 9, 0) := by
  simp [sendbList, byteList]

@[simp] theorem totals_cmdList (a : Byte) : totals (cmdList a) = (59, 25, 21, 13, 0) := by
  simp [cmdList]

@[simp] theorem totals_wratList (c : Config) (a b : Byte) : totals (wratList c a b) = (164, 69, 60, 35, 0) := by
  simp [wratList]

/-- The symbol of a rising clock edge, as R87 counts them. -/
def isBit (y : Symbol) : Bool := y == .bit true || y == .bit false

theorem isBit_bit (v : Level) : isBit (.bit v) = true := by
  cases v <;> rfl

/-- Nine edges for each byte and the one of the `STOP`. -/
theorem countP_isBit_frameSymbols (xs : List Byte) : (frameSymbols xs).countP isBit = 9 * xs.length + 1 := by
  have hbits (vs : List Level) : (vs.map Symbol.bit).countP isBit = vs.length := by
    rw [List.countP_map, List.countP_eq_length]
    exact fun v _ => isBit_bit v
  have hlength : (xs.flatMap groupBits).length = 9 * xs.length := by
    simp [groupBits, List.length_flatMap, mul_comm]
  rw [frameSymbols, List.cons_append, List.countP_cons, List.countP_append, hbits, hlength]
  rfl

/-- Settles O7: the totals add up over a list's parts, and each frame has the edges of its bytes. -/
theorem operationCounts : Obligations.OperationCounts := by
  intro c a b
  constructor
  · change [setupList, startList, stopList, sendbList a, cmdList a, wratList c a b].map totals = _
    simp
  · change [cmdList a, wratList c a b].map (fun ms =>
      (symbolsFrom (Lines.driven true true) (ms.map MicroOp.event)).countP isBit) = _
    simp [symbolsFrom_cmdList, symbolsFrom_wratList, countP_isBit_frameSymbols]

/-! ### The framing grammar (R88) -/

/-- The contract lets an operation pass when it is well formed and has its place in the pattern. -/
theorem judge_eq_goOn_iff (c : Config) (st t : Stage) (i : Instr) :
    judge c st i = .goOn t ↔ i.wf c = true ∧ frameStage st i = some t := by
  unfold judge Instr.wf
  cases i.defined with
  | false => simp
  | true =>
    cases i.positionInRange c with
    | false => simp
    | true =>
      cases frameStage st i with
      | none => by_cases hst : st = .fresh <;> simp [hst]
      | some u => simp

theorem judgeAll_eq_goOn_iff (c : Config) (st t : Stage) (prog : List Instr) :
    judgeAll c st prog = .goOn t ↔ (∀ i ∈ prog, i.wf c = true) ∧ prog.foldlM frameStage st = some t := by
  induction prog generalizing st with
  | nil => simp [judgeAll]
  | cons i rest ih =>
    rw [List.forall_mem_cons, List.foldlM_cons, judgeAll]
    cases hj : judge c st i with
    | goOn u =>
      obtain ⟨hwf, hu⟩ := (judge_eq_goOn_iff c st u i).1 hj
      simp [hwf, hu, ih]
    | refuse b =>
      simp only [reduceCtorEq, false_iff]
      rintro ⟨⟨hwf, -⟩, hfold⟩
      obtain ⟨u, hu, -⟩ := Option.bind_eq_some_iff.1 hfold
      have := (judge_eq_goOn_iff c st u i).2 ⟨hwf, hu⟩
      simp [hj] at this

/-- The moves of the pattern, one for each kind of operation. -/
theorem frameStage_cases {st t : Stage} {i : Instr} (h : frameStage st i = some t) :
    (i = .setup ∧ st = .fresh ∧ t = .idle) ∨ (i = .start ∧ st = .idle ∧ t = .opened) ∨
    (∃ x, i = .sendb x ∧ (st = .opened ∨ st = .inFrame) ∧ t = .inFrame) ∨ (i = .stop ∧ st = .inFrame ∧ t = .idle) ∨
    (∃ a, i = .cmd a ∧ st = .idle ∧ t = .idle) ∨ (∃ a b, i = .wrat a b ∧ st = .idle ∧ t = .idle) := by
  cases i <;> simp_all [frameStage, eq_comm]

/-- What the grammar of R88 lets follow at a stage. -/
def LegalFrom : Stage → List Instr → Prop
  | .fresh, prog => LegalOrder prog
  | .idle, prog => FramedBody prog
  | .opened, prog => ∃ (x : Byte) (xs : List Byte) (rest : List Instr),
    prog = .sendb x :: (xs.map .sendb ++ .stop :: rest) ∧ FramedBody rest
  | .inFrame, prog => ∃ (xs : List Byte) (rest : List Instr),
    prog = xs.map .sendb ++ .stop :: rest ∧ FramedBody rest

/-- A move of the pattern leads to what the grammar lets follow; with it in front, that is legal where the move began. -/
theorem legalFrom_cons {st t : Stage} {i : Instr} {rest : List Instr} (h : frameStage st i = some t)
    (hrest : LegalFrom t rest) : LegalFrom st (i :: rest) := by
  rcases frameStage_cases h with ⟨rfl, rfl, rfl⟩ | ⟨rfl, rfl, rfl⟩ | ⟨x, rfl, hst, rfl⟩ | ⟨rfl, rfl, rfl⟩ |
    ⟨a, rfl, rfl, rfl⟩ | ⟨a, b, rfl, rfl, rfl⟩
  · exact ⟨rest, rfl, hrest⟩
  · obtain ⟨x, xs, after, rfl, hafter⟩ := hrest
    exact FramedBody.handMade x xs hafter
  · obtain ⟨xs, after, rfl, hafter⟩ := hrest
    rcases hst with rfl | rfl
    · exact ⟨x, xs, after, rfl, hafter⟩
    · exact ⟨x :: xs, after, rfl, hafter⟩
  · exact ⟨[], rest, rfl, hrest⟩
  · exact FramedBody.cmd a hrest
  · exact FramedBody.wrat a b hrest

theorem legalFrom_of_foldlM {prog : List Instr} {st : Stage} (h : prog.foldlM frameStage st = some .idle) :
    LegalFrom st prog := by
  induction prog generalizing st with
  | nil =>
    obtain rfl : st = .idle := Option.some.inj h
    exact FramedBody.done
  | cons i rest ih =>
    obtain ⟨t, ht, hrest⟩ := Option.bind_eq_some_iff.1 h
    exact legalFrom_cons ht (ih hrest)

/-- The rest of a hand-made frame after its first byte leads back between frames. -/
theorem foldlM_sendbs_stop (xs : List Byte) (rest : List Instr) :
    (xs.map Instr.sendb ++ .stop :: rest).foldlM frameStage .inFrame = rest.foldlM frameStage .idle := by
  induction xs with
  | nil => rfl
  | cons x xs ih => exact ih

theorem foldlM_of_framedBody {body : List Instr} (h : FramedBody body) :
    body.foldlM frameStage .idle = some .idle := by
  induction h with
  | done => rfl
  | cmd a _ ih => exact ih
  | wrat a b _ ih => exact ih
  | handMade x xs _ ih => exact (foldlM_sendbs_stop xs _).trans ih

theorem foldlM_frameStage_iff (prog : List Instr) :
    prog.foldlM frameStage .fresh = some .idle ↔ LegalOrder prog := by
  refine ⟨fun h => legalFrom_of_foldlM h, ?_⟩
  rintro ⟨body, rfl, hbody⟩
  exact foldlM_of_framedBody hbody

/-- Settles O52: the verdict of the contract is that of the pattern's stages and of each operation's own check, and the
stages read the grammar. -/
theorem contractIsTheFramingGrammar : Obligations.ContractIsTheFramingGrammar := by
  intro c prog
  rw [admits, beq_iff_eq, judgeAll_eq_goOn_iff, foldlM_frameStage_iff, and_comm]

end Sys2Proof.Machine
end

section
/-! Proofs for 40_line_primitives.md: the line primitives from every idle state (R101 to R103), their symbols (R104),
composites inside an open frame (R105), and the settle delays (R106). -/

namespace Sys2Proof.Machine

/-! ### One STOP, and a composite inside an open frame (R105) -/

/-- Data raised by the `START` closes the open frame with a `P`; from there on the lines are those of an idle bus. -/
theorem symbolsFrom_openFrame_startList (ms : List MicroOp) :
    symbolsFrom (Lines.driven true false) ((startList ++ ms).map MicroOp.event) =
      .stop :: symbolsFrom (Lines.driven true true) ((startList ++ ms).map MicroOp.event) := by
  rw [symbolsFrom_events_append, symbolsFrom_events_append]
  rfl

theorem symbolsFrom_sendbList (d : Level) (x : Byte) :
    symbolsFrom (Lines.driven true d) ((sendbList x).map MicroOp.event) =
      (List.range 8).map (fun i => Symbol.bit (x.getLsbD i)) ++ [.bit false] := by
  rw [sendbList_eq_cells, symbolsFrom_cells]
  rfl

theorem symbolsFrom_startList_sendbList (x : Byte) (ms : List MicroOp) :
    ∃ rest, symbolsFrom (Lines.driven true true) ((startList ++ (sendbList x ++ ms)).map MicroOp.event) =
      .start :: (List.range 8).map (fun i => Symbol.bit (x.getLsbD i)) ++ rest := by
  have hstart : linesAfter startList (Lines.driven true true) = Lines.driven true false := rfl
  rw [symbolsFrom_events_append, symbolsFrom_startList, hstart, symbolsFrom_events_append, symbolsFrom_sendbList,
    List.append_assoc]
  exact ⟨_, rfl⟩

/-- A list that starts with `START` and a byte, as that of every composite does (R131, R132). -/
theorem startList_sendbList_reframes (x : Byte) (ms : List MicroOp) :
    symbolsFrom (Lines.driven true false) ((startList ++ (sendbList x ++ ms)).map MicroOp.event) =
      .stop :: symbolsFrom (Lines.driven true true) ((startList ++ (sendbList x ++ ms)).map MicroOp.event) ∧
    ∃ rest, symbolsFrom (Lines.driven true true) ((startList ++ (sendbList x ++ ms)).map MicroOp.event) =
      .start :: (List.range 8).map (fun i => Symbol.bit (x.getLsbD i)) ++ rest :=
  ⟨symbolsFrom_openFrame_startList _, symbolsFrom_startList_sendbList x ms⟩

theorem cmdList_eq_start_byte (a : Byte) : cmdList a = startList ++ (sendbList a ++ stopList) :=
  List.append_assoc _ _ _

theorem wratList_eq_start_byte (c : Config) (a b : Byte) :
    ∃ ms, wratList c a b = startList ++ (sendbList c.cmdDataFixed ++ ms) := by
  rw [wratList, cmdList_eq_start_byte]
  simp only [List.append_assoc]
  exact ⟨_, rfl⟩

/-- Settles O36: a `STOP` ends at `(1, 1)` after any program (O34), and the list of either composite starts with `START`
and its first byte. -/
theorem compositesReframeTheBus : Obligations.CompositesReframeTheBus := by
  refine ⟨fun prog s hb => ?_, ?_⟩
  · obtain ⟨t, ht, hidle, hlevels, -⟩ := levelsAfterAnyProgram prog .stop s hb rfl
    exact ⟨t, ht, hidle, hlevels (.inr (.inl rfl))⟩
  · rintro c a b i (rfl | rfl)
    · rw [microOps, cmdList_eq_start_byte]
      exact startList_sendbList_reframes a _
    · obtain ⟨ms, hms⟩ := wratList_eq_start_byte c a b
      rw [microOps, hms]
      exact startList_sendbList_reframes c.cmdDataFixed ms

/-! ### Settle delays (R106) -/

theorem settledWrites_append {ms ns : List MicroOp} (h : settledWrites ms = true) (h' : settledWrites ns = true) :
    settledWrites (ms ++ ns) = true := by
  induction ms using settledWrites.induct with
  | case1 => exact h'
  | case2 ms ih | case3 ms ih | case4 ms ih | case5 ms ih | case6 ms ih | case7 ms ih | case8 ms ih => exact ih h
  | case9 m ms =>
    have hfalse : settledWrites (m :: ms) = false := by rw [settledWrites] <;> assumption
    rw [hfalse] at h
    cases h

/-- The clock-low and data writes of a cell share the first of its settle delays. -/
theorem settledWrites_cell (v : Level) : settledWrites (cell v) = true := by
  cases v <;> rfl

theorem settledWrites_cells (vs : List Level) : settledWrites (vs.flatMap cell) = true := by
  induction vs with
  | nil => rfl
  | cons v vs ih => exact settledWrites_append (settledWrites_cell v) ih

theorem settledWrites_sendbList (x : Byte) : settledWrites (sendbList x) = true :=
  settledWrites_cells (groupBits x)

theorem settledWrites_startList : settledWrites startList = true := rfl

theorem settledWrites_stopList : settledWrites stopList = true := rfl

theorem settledWrites_frameList (xs : List Byte) : settledWrites (frameList xs) = true := by
  have hbytes : settledWrites (xs.flatMap sendbList) = true := by
    induction xs with
    | nil => rfl
    | cons x xs ih => exact settledWrites_append (settledWrites_sendbList x) ih
  exact settledWrites_append (settledWrites_append settledWrites_startList hbytes) settledWrites_stopList

theorem settledWrites_microOps (c : Config) {i : Instr} (h : i ≠ .setup) : settledWrites (microOps c i) = true := by
  cases i with
  | setup => exact absurd rfl h
  | start => exact settledWrites_startList
  | stop => exact settledWrites_stopList
  | sendb a => exact settledWrites_sendbList a
  | cmd a =>
    rw [microOps, cmdList_eq_frameList]
    exact settledWrites_frameList [a]
  | wrat a b =>
    rw [microOps, wratList_eq_frameLists]
    exact settledWrites_append (settledWrites_append (settledWrites_frameList _) (settledWrites_frameList _)) rfl
  | reserved6 | reserved7 => rfl

/-- Settles O8: every list but that of `SETUP` is put together from cells and from the lists of `START` and `STOP`, each
settled and ending in a settle delay. -/
theorem delaysFollowLineWrites : Obligations.DelaysFollowLineWrites := by
  refine fun c i => ⟨settledWrites_microOps c, ?_⟩
  rintro rfl
  change MicroOp.t ∉ setupList
  decide

/-! ### The primitives from every idle state (R101 to R103) -/

theorem symbolsFrom_setupList (d : Level) :
    symbolsFrom (Lines.driven true d) (setupList.map MicroOp.event) = if d then [] else [.stop] := by
  cases d <;> rfl

/-- Settles O10: `SETUP` runs its list, and the symbols of the four corner cases are those of its two level writes. -/
theorem setupRuns : Obligations.SetupRuns :=
  ⟨fun _ => exec_ranTo .setup, rfl, symbolsFrom_setupList true, symbolsFrom_setupList false, rfl⟩

/-- Settles O11: the end lines of `START` keep the directions. -/
theorem startRuns : Obligations.StartRuns :=
  fun _ => exec_ranTo .start

/-- Settles O12: the end lines of `STOP` keep the directions. -/
theorem stopRuns : Obligations.StopRuns :=
  fun _ => exec_ranTo .stop

/-! ### The symbols of the primitives (R104) -/

/-- Settles O35: inside an open frame `START` gives a `P` first; `STOP` and `SENDB` do not depend on the data level. -/
theorem symbolsOfThePrimitives : Obligations.SymbolsOfThePrimitives :=
  ⟨symbolsFrom_startList, symbolsFrom_openFrame_startList [], symbolsFrom_stopList false, symbolsFrom_stopList true,
    symbolsFrom_sendbList, symbolsFrom_setupList true, symbolsFrom_setupList false⟩

/-! ### The bus after SETUP from reset (R101, R210) -/

/-- Settles O41: the trace is that of the list of `SETUP`, which replays to both lines driven high and has no symbol. -/
theorem setupOpensTheBus : Obligations.SetupOpensTheBus := by
  intro c
  obtain ⟨t, ht, hran⟩ := exec_ranTo .setup (s := State.resetWith c) rfl
  have htrace : t.trace = setupList.map MicroOp.event := hran.trace
  refine ⟨t, ht, ⟨hran.idle, hran.lines, ?_, ?_⟩, ?_, ?_⟩
  · rw [htrace, hran.lines]
    rfl
  all_goals
    rw [htrace]
    rfl

end Sys2Proof.Machine
end

section
/-! Proofs for 41_byte_transfer.md: `SENDB` from every idle state (R121), the acknowledge slot on the wire (R122), and
the wire levels that no rule reads (R123). -/

namespace Sys2Proof.Machine

/-! ### The list of SENDB (R120, R121) -/

/-- Eight data cells, bit 0 first, then the acknowledge slot. -/
theorem sendbList_eq_dataCells (a : Byte) :
    sendbList a = (List.range 8).flatMap (fun i => cell (a.getLsbD i)) ++ cell false := rfl

/-- Settles O13: the statement's list is that of the nine cells, written out. -/
theorem sendbRuns : Obligations.SendbRuns := by
  intro a s hb
  obtain ⟨t, ht, hran⟩ := exec_ranTo (.sendb a) hb
  rw [microOps, sendbList_eq_dataCells] at hran
  exact ⟨t, ht, hran⟩

/-! ### The acknowledge slot on the wire (R122, R60) -/

/-- An index from 40 on counts into the acknowledge slot. -/
theorem sendbList_take (a : Byte) (j : Nat) :
    (sendbList a).take (40 + j) = (List.range 8).flatMap (fun i => cell (a.getLsbD i)) ++ (cell false).take j :=
  List.take_length_add_append (l₁ := (List.range 8).flatMap fun i => cell (a.getLsbD i)) j

/-- From the slot's data write on, data is low. -/
theorem linesAfter_take_acknowledge_sda (l : Lines) {j : Nat} (hj : 2 ≤ j) (hj' : j ≤ 5) :
    (linesAfter ((cell false).take j) l).sda = false := by
  interval_cases j <;> rfl

/-- A data line that the block holds low is low on the wire, in both pad styles (R28). -/
theorem wires_sda_of_driven_low {l : Lines} (hdir : l.sdaDir = .output) (hsda : l.sda = false) (style : PinStyle)
    (env : Env) (n : Nat) : (l.wires style env n).2 = false := by
  have hown : ownLevel l.sdaDir l.sda = false := by rw [hdir, hsda]; rfl
  have hwire : (l.wires style env n).2 = ownLevel l.sdaDir l.sda := wireLevel_eq_ownLevel _ _ _ _ _ _ (by simp [hown])
  rw [hwire, hown]

/-- Settles O40: the data line stays driven, and the slot holds it low. -/
theorem acknowledgeSlotIsInvisible : Obligations.AcknowledgeSlotIsInvisible := by
  intro a sda style env n k hk hk'
  obtain ⟨j, rfl⟩ := Nat.exists_eq_add_of_le (show 40 ≤ k by omega)
  refine wires_sda_of_driven_low ((linesAfter_keepsDriven _ _).2 rfl) ?_ style env n
  rw [sendbList_take, linesAfter_append]
  exact linesAfter_take_acknowledge_sda _ (by omega) (by omega)

/-! ### The wire levels are never read (R123, R136) -/

/-- A tick reads the command port and `rst`, and no other input. -/
theorem tick_congr {p q : PortInput} (hvalid : p.opValid = q.opValid) (hword : p.opWord = q.opWord)
    (hrst : p.rst = q.rst) (s : State) : tick p s = tick q s := by
  rw [tick, tick, hvalid, hword, hrst]

/-- Settles O27, by induction on the ticks: each of them gives one state for both inputs. -/
theorem theBusIsNeverSampled : Obligations.TheBusIsNeverSampled := by
  intro s p q n h
  induction n generalizing p q s with
  | zero => rfl
  | succ n ih =>
    obtain ⟨hvalid, hword, hrst⟩ := h 0
    rw [ticks, ticks, tick_congr hvalid hword hrst]
    exact ih _ _ _ fun k => h (k + 1)

end Sys2Proof.Machine
end

section
/-! Proofs for 42_transactions.md: `CMD` (R130, R131) and `WRAT` (R132, R133, R138) from every idle state. -/

namespace Sys2Proof.Machine

/-! ### The lists of the transactions (R130 to R133) -/

/-- The list of `START`, the byte, the list of `STOP`, with nothing between. -/
theorem cmdList_eq_start_sendb_stop (a : Byte) :
    cmdList a = [.c1, .t, .d1, .t, .d0, .t] ++ sendbList a ++ [.c0, .t, .d0, .t, .c1, .t, .d1, .t] := rfl

/-- The mode-select frame, the frame of the address byte and the data, one settle delay; the address byte is the OR of
`CMD_ADDR` and the position (R133). -/
theorem wratList_eq_two_frames_settle (c : Config) (a b : Byte) :
    wratList c a b =
      startList ++ sendbList c.cmdDataFixed ++ stopList ++
        startList ++ sendbList (c.cmdAddr ||| a) ++ sendbList b ++ stopList ++ [.t] := rfl

/-! ### The transactions from every idle state (R131, R132, R138) -/

/-- Settles O14: the end lines of `CMD` keep the directions. -/
theorem cmdRuns : Obligations.CmdRuns := by
  intro a s hb
  obtain ⟨t, ht, hran⟩ := exec_ranTo (.cmd a) hb
  rw [microOps, cmdList_eq_start_sendb_stop] at hran
  exact ⟨t, ht, hran⟩

/-- Settles O15: nothing that an operation does depends on the position being in range. -/
theorem wratRuns : Obligations.WratRuns := by
  intro a b s hb
  obtain ⟨t, ht, hran⟩ := exec_ranTo (.wrat a b) hb
  rw [microOps, wratList_eq_two_frames_settle] at hran
  exact ⟨t, ht, hran⟩

end Sys2Proof.Machine
end

section
/-! Proofs for 43_host_sequences.md: the calls of the Display Buffer Encoder and the operations they issue. -/

namespace Sys2Proof.Machine

/-! ### Writes at descending positions (R157, R159, R160) -/

/-- The number of positions from an offset down to 0: none from the sentinel, which stands below 0. -/
def room (offset : Byte) : Nat := (offset + 1).toNat

@[simp] theorem room_sentinel : room sentinel = 0 := rfl

theorem room_of_ne_sentinel {offset : Byte} (h : offset ≠ sentinel) : room offset = offset.toNat + 1 := by
  unfold sentinel at h
  unfold room
  bv_omega

theorem room_sub_one (offset : Byte) : room (offset - 1) = offset.toNat := by
  rw [room, BitVec.sub_add_cancel]

theorem room_le (offset : Byte) : room offset ≤ 256 := (offset + 1).isLt.le

theorem sub_ofNat_of_lt_room {offset : Byte} {k : Nat} (hk : k < room offset) :
    offset - BitVec.ofNat 8 k = BitVec.ofNat 8 (offset.toNat - k) := by
  have hne : offset ≠ sentinel := by
    rintro rfl
    exact Nat.not_lt_zero k hk
  rw [room_of_ne_sentinel hne] at hk
  bv_omega

theorem toNat_ofNat_le (p : Nat) : (BitVec.ofNat 8 p : Byte).toNat ≤ p := Nat.mod_le p (2 ^ 8)

/-- `n` writes from an offset down, the `k`-th at `offset - k`. -/
def descending (write : Nat → Byte → Instr) (offset : Byte) (n : Nat) : List Instr :=
  (List.range n).map fun k => write k (offset - BitVec.ofNat 8 k)

@[simp] theorem descending_zero (write : Nat → Byte → Instr) (offset : Byte) : descending write offset 0 = [] := rfl

theorem descending_succ (write : Nat → Byte → Instr) (offset : Byte) (n : Nat) :
    descending write offset (n + 1) =
      write 0 offset :: descending (fun k => write (k + 1)) (offset - 1) n := by
  have position (k : Nat) : offset - BitVec.ofNat 8 (k + 1) = offset - 1 - BitVec.ofNat 8 k := by bv_omega
  rw [descending, List.range_succ_eq_map, List.map_cons, List.map_map]
  exact congrArg₂ List.cons (by simp) (List.map_congr_left fun k _ => congrArg (write (k + 1)) (position k))

@[simp] theorem length_descending (write : Nat → Byte → Instr) (offset : Byte) (n : Nat) :
    (descending write offset n).length = n := by
  simp [descending]

theorem getElem?_descending (write : Nat → Byte → Instr) {offset : Byte} {n k : Nat} (hn : n ≤ room offset)
    (hk : k < n) : (descending write offset n)[k]? = some (write k (BitVec.ofNat 8 (offset.toNat - k))) := by
  simp [descending, hk, sub_ofNat_of_lt_room (hk.trans_le hn)]

theorem exists_of_mem_descending {write : Nat → Byte → Instr} {offset : Byte} {n : Nat} (hn : n ≤ room offset)
    {i : Instr} (hi : i ∈ descending write offset n) :
    ∃ k pos, i = write k pos ∧ pos.toNat ≤ offset.toNat := by
  obtain ⟨k, hk⟩ := List.mem_iff_getElem?.1 hi
  have hkn : k < n := by simpa using (List.getElem?_eq_some_iff.1 hk).1
  rw [getElem?_descending write hn hkn, Option.some_inj] at hk
  exact ⟨k, _, hk.symm, (toNat_ofNat_le _).trans (Nat.sub_le _ _)⟩

/-! ### The loop of `SETDEC` (R157, R158) -/

theorem length_digits_of_ne_zero {value : Nat} (h : value ≠ 0) :
    (Nat.digits 10 value).length = (Nat.digits 10 (value / 10)).length + 1 := by
  rw [Nat.digits_def' (by decide) (Nat.pos_of_ne_zero h), List.length_cons]

theorem decimalLoop_eq_descending (h : HostConfig) (e : EncoderState) {fuel value : Nat} {offset : Byte}
    (hfuel : room offset ≤ fuel) :
    decimalLoop h e fuel value offset =
      descending (fun k pos => setDigit h e pos (value / 10 ^ k % 10)) offset
        (min (Nat.digits 10 value).length (room offset)) := by
  induction fuel generalizing value offset with
  | zero => simp [decimalLoop, Nat.le_zero.1 hfuel]
  | succ fuel ih =>
    rw [decimalLoop]
    split
    case isTrue hgo =>
      obtain ⟨hvalue, hoffset⟩ := hgo
      rw [room_of_ne_sentinel hoffset] at hfuel ⊢
      rw [length_digits_of_ne_zero hvalue, Nat.add_min_add_right, descending_succ,
        ih (by rw [room_sub_one]; omega), room_sub_one]
      simp [Nat.div_div_eq_div_mul, Nat.pow_succ']
    case isFalse hstop =>
      by_cases hvalue : value = 0
      · simp [hvalue]
      · obtain rfl : offset = sentinel := by_contra fun hoffset => hstop ⟨hvalue, hoffset⟩
        simp

theorem setDec_right_eq_descending (h : HostConfig) (e : EncoderState) (value : Nat) (offset : Byte) :
    setDec h e value offset .right =
      descending (fun k pos => setDigit h e pos (value / 10 ^ k % 10)) offset
        (min (Nat.digits 10 value).length (room offset)) :=
  decimalLoop_eq_descending h e (room_le offset)

/-- Settles O56: the loop is a descending run, of the shorter of the two lengths. -/
theorem decimalDigitsDescend : Obligations.DecimalDigitsDescend := by
  intro h e value offset
  rw [setDec_right_eq_descending, length_descending]
  constructor
  · rintro rfl
    simp
  · intro hoffset
    rw [← room_of_ne_sentinel hoffset]
    exact ⟨rfl, fun k hk => getElem?_descending _ (Nat.min_le_right _ _) hk⟩

/-- The repeated division of R158 counts the decimal digits beyond one. -/
theorem extraDigits_eq_log {fuel n : Nat} (h : n ≤ fuel) : extraDigits fuel n = Nat.log 10 n := by
  induction fuel generalizing n with
  | zero => simp [extraDigits, Nat.le_zero.1 h]
  | succ fuel ih =>
    rw [extraDigits]
    split
    case isTrue hmore => rw [ih (by omega), Nat.log_of_one_lt_of_le (by decide) (by omega : 10 ≤ n)]
    case isFalse hdone => rw [Nat.log_of_lt (by omega)]

theorem extraDigits_eq_length_digits (value : Nat) :
    extraDigits value value = (Nat.digits 10 value).length - 1 := by
  rw [extraDigits_eq_log le_rfl]
  by_cases h : value = 0
  · simp [h]
  · rw [Nat.length_digits 10 value (by decide) h, Nat.add_sub_cancel]

theorem setDec_left_eq_right (h : HostConfig) (e : EncoderState) (value : Nat) (offset : Byte) :
    setDec h e value offset .left =
      setDec h e value (offset + BitVec.ofNat 8 ((Nat.digits 10 value).length - 1)) .right := by
  rw [← extraDigits_eq_length_digits]
  rfl

/-- A right-aligned number whose digits have room is written whole. -/
theorem setDec_right_of_room (h : HostConfig) (e : EncoderState) {value : Nat} {offset : Byte}
    (hroom : (Nat.digits 10 value).length ≤ room offset) :
    setDec h e value offset .right =
      descending (fun k pos => setDigit h e pos (value / 10 ^ k % 10)) offset (Nat.digits 10 value).length := by
  rw [setDec_right_eq_descending, Nat.min_eq_left hroom]

theorem leadingDigit_mod (value : Nat) :
    value / 10 ^ ((Nat.digits 10 value).length - 1) % 10 = value / 10 ^ ((Nat.digits 10 value).length - 1) := by
  by_cases h : value = 0
  · simp [h]
  · refine Nat.mod_eq_of_lt (Nat.div_lt_of_lt_mul ?_)
    rw [← Nat.pow_succ, Nat.succ_eq_add_one, Nat.sub_add_cancel (by rw [length_digits_of_ne_zero h]; omega)]
    exact Nat.lt_base_pow_length_digits (by decide)

/-- Settles O57: from the advanced offset the digits have room, and the last of them is back at the given offset. -/
theorem leftAlignedLeadsAtTheOffset : Obligations.LeftAlignedLeadsAtTheOffset := by
  intro h e value offset digits out
  have hout : out = setDec h e value (offset + BitVec.ofNat 8 (digits - 1)) .right :=
    setDec_left_eq_right h e value offset
  refine ⟨hout, ?_, ?_⟩
  · intro hzero
    simp [hout, hzero, setDec_right_eq_descending]
  · intro hne hfits
    have hpos : 1 ≤ digits := by
      have := length_digits_of_ne_zero hne
      omega
    have hto : (offset + BitVec.ofNat 8 (digits - 1)).toNat = offset.toNat + digits - 1 := by bv_omega
    have hroom : digits ≤ room (offset + BitVec.ofNat 8 (digits - 1)) := by
      rw [room_of_ne_sentinel (by unfold sentinel; bv_omega), hto]
      omega
    have hlength : out.length = digits := by
      rw [hout, setDec_right_of_room h e hroom, length_descending]
    have hwrites : ∀ k < digits, out[k]? =
        some (setDigit h e (BitVec.ofNat 8 (offset.toNat + digits - 1 - k)) (value / 10 ^ k % 10)) := by
      intro k hk
      rw [hout, setDec_right_of_room h e hroom, getElem?_descending _ hroom hk, hto]
    refine ⟨hlength, hwrites, ?_⟩
    have hback : offset.toNat + digits - 1 - (digits - 1) = offset.toNat := by omega
    rw [List.getLast?_eq_getElem?, hlength, hwrites (digits - 1) (by omega), hback, leadingDigit_mod,
      BitVec.ofNat_toNat, BitVec.setWidth_eq]

/-! ### Padded writes (R159, R160) -/

/-- The base of R159 and of R160. -/
def Radix.base : Radix → Nat
  | .decimal => 10
  | .hexadecimal => 16

theorem Radix.digit_eq_mod (r : Radix) (value : Nat) : r.digit value = value % r.base := by
  cases r with
  | decimal => rfl
  | hexadecimal => exact Nat.and_two_pow_sub_one_eq_mod value 4

theorem Radix.rest_eq_div (r : Radix) (value : Nat) : r.rest value = value / r.base := by
  cases r with
  | decimal => rfl
  | hexadecimal => exact Nat.shiftRight_eq_div_pow value 4

theorem padLoop_eq_descending (h : HostConfig) (e : EncoderState) (pad : Byte) {fuel width : Nat} {offset : Byte}
    (hfuel : room offset ≤ fuel) :
    padLoop h e pad fuel offset width =
      descending (fun _ pos => setRaw h e pos pad) offset (min width (room offset)) := by
  induction fuel generalizing width offset with
  | zero => simp [padLoop, Nat.le_zero.1 hfuel]
  | succ fuel ih =>
    rw [padLoop]
    split
    case isTrue hgo =>
      obtain ⟨hwidth, hoffset⟩ := hgo
      obtain ⟨width, rfl⟩ := Nat.exists_eq_succ_of_ne_zero hwidth
      rw [room_of_ne_sentinel hoffset] at hfuel ⊢
      rw [Nat.succ_eq_add_one, Nat.add_min_add_right, descending_succ, Nat.add_sub_cancel,
        ih (by rw [room_sub_one]; omega), room_sub_one]
    case isFalse hstop =>
      by_cases hwidth : width = 0
      · simp [hwidth]
      · obtain rfl : offset = sentinel := by_contra fun hoffset => hstop ⟨hwidth, hoffset⟩
        simp

/-- The `k`-th write of a padded number: its digit while the value lasts, then the pad. -/
def digitOrPad (h : HostConfig) (e : EncoderState) (r : Radix) (pad : Byte) (value k : Nat) (pos : Byte) : Instr :=
  if value / r.base ^ k ≠ 0 then setDigit h e pos (value / r.base ^ k % r.base) else setRaw h e pos pad

theorem digitOrPad_zero (h : HostConfig) (e : EncoderState) (r : Radix) (pad : Byte) :
    digitOrPad h e r pad 0 = fun _ pos => setRaw h e pos pad := by
  funext k pos
  simp [digitOrPad]

theorem digitOrPad_succ (h : HostConfig) (e : EncoderState) (r : Radix) (pad : Byte) (value k : Nat) :
    digitOrPad h e r pad value (k + 1) = digitOrPad h e r pad (value / r.base) k := by
  funext pos
  simp [digitOrPad, Nat.div_div_eq_div_mul, Nat.pow_succ']

theorem paddedLoop_eq_descending (h : HostConfig) (e : EncoderState) (r : Radix) (pad : Byte)
    {fuel value width : Nat} {offset : Byte} (hfuel : room offset ≤ fuel) :
    paddedLoop h e r pad fuel value offset width =
      descending (digitOrPad h e r pad value) offset (min width (room offset)) := by
  induction fuel generalizing value width offset with
  | zero => simp [paddedLoop, Nat.le_zero.1 hfuel]
  | succ fuel ih =>
    rw [paddedLoop]
    split
    case isTrue hgo =>
      obtain ⟨hvalue, hwidth, hoffset⟩ := hgo
      obtain ⟨width, rfl⟩ := Nat.exists_eq_succ_of_ne_zero hwidth
      rw [room_of_ne_sentinel hoffset] at hfuel ⊢
      rw [Nat.succ_eq_add_one, Nat.add_min_add_right, descending_succ, Nat.add_sub_cancel,
        ih (by rw [room_sub_one]; omega), room_sub_one]
      simp [digitOrPad_succ, r.rest_eq_div, r.digit_eq_mod, digitOrPad, hvalue]
    case isFalse hstop =>
      rw [padLoop_eq_descending h e pad hfuel]
      by_cases hvalue : value = 0
      · rw [hvalue, digitOrPad_zero]
      · have hnone : min width (room offset) = 0 := by
          by_cases hwidth : width = 0
          · simp [hwidth]
          · obtain rfl : offset = sentinel := by_contra fun hoffset => hstop ⟨hvalue, hwidth, hoffset⟩
            simp
        simp [hnone]

theorem setPadded_eq_descending (h : HostConfig) (e : EncoderState) (r : Radix) (value width : Nat)
    (offset pad : Byte) :
    setPadded h e r value offset width pad =
      descending (digitOrPad h e r pad value) offset (min width (room offset)) :=
  paddedLoop_eq_descending h e r pad ((room_le offset).trans (by decide))

/-- Settles O58: both loops together are one descending run of digits or pads. -/
theorem paddedWritesFillTheWidth : Obligations.PaddedWritesFillTheWidth := by
  intro h e r value width offset pad base out
  have hbase : base = r.base := by cases r <;> rfl
  have hout : out = descending (digitOrPad h e r pad value) offset (min width (room offset)) :=
    setPadded_eq_descending h e r value width offset pad
  rw [hout, hbase, length_descending]
  constructor
  · rintro rfl
    simp
  · intro hoffset
    rw [← room_of_ne_sentinel hoffset]
    exact ⟨rfl, fun k hk => getElem?_descending _ (Nat.min_le_right _ _) hk⟩

/-! ### Digits and characters (R155, R156, R161) -/

/-- Settles O55: the index of a digit below 16 is the digit. -/
theorem digitsCarryTheDotMask : Obligations.DigitsCarryTheDotMask := by
  intro h e pos n
  have hglyph : glyphAt h n = h.glyph[n] := by simp [glyphAt, Nat.mod_eq_of_lt n.isLt]
  rw [setDigit, setRaw, hglyph]
  constructor
  · intro hmask
    rw [if_pos hmask]
  · intro hmask
    rw [if_neg (ne_true_of_eq_false hmask)]

theorem codeIn_iff (lo hi : Nat) (c : Byte) : codeIn lo hi c = true ↔ lo ≤ c.toNat ∧ c.toNat ≤ hi := by
  simp [codeIn]

theorem charGlyph_of_mapped {h : HostConfig} {c : Byte} (hmap : h.charMap c ≠ 0) : charGlyph h c = h.charMap c := by
  simp only [charGlyph, hmap, false_and, if_false]

/-- The three ranges of an unmapped character exclude each other, so at most one lookup is made. -/
theorem charGlyph_of_unmapped {h : HostConfig} {c : Byte} (hmap : h.charMap c = 0) :
    charGlyph h c =
      if 97 ≤ c.toNat ∧ c.toNat ≤ 122 then glyphAt h (c.toNat - 97 + 10)
      else if 65 ≤ c.toNat ∧ c.toNat ≤ 90 then glyphAt h (c.toNat - 65 + 10)
      else if 48 ≤ c.toNat ∧ c.toNat ≤ 57 then glyphAt h (c.toNat - 48)
      else 0 := by
  simp only [charGlyph, hmap, true_and, codeIn_iff]
  by_cases hlower : 97 ≤ c.toNat ∧ c.toNat ≤ 122
  · have hupper : ¬ (65 ≤ c.toNat ∧ c.toNat ≤ 90) := by omega
    have hdigit : ¬ (48 ≤ c.toNat ∧ c.toNat ≤ 57) := by omega
    simp only [hlower, hupper, hdigit, and_self, and_false, if_true, if_false]
  · by_cases hupper : 65 ≤ c.toNat ∧ c.toNat ≤ 90
    · have hdigit : ¬ (48 ≤ c.toNat ∧ c.toNat ≤ 57) := by omega
      simp only [hlower, hupper, hdigit, and_self, and_false, if_true, if_false]
    · simp only [hlower, hupper, true_and, if_false, and_false]

/-- Settles O59: a mapped character is its own glyph, and an unmapped one is looked up in the one range it is in. -/
theorem charactersAreLookedUpInOrder : Obligations.CharactersAreLookedUpInOrder := by
  intro h e pos c
  refine ⟨charGlyph_of_mapped, fun hmap => ?_, fun hzero hspace => ?_, fun hshown => if_pos hshown⟩
  · rw [charGlyph_of_unmapped hmap]
    refine ⟨fun hlo hhi => ?_, fun hlo hhi => ?_, fun hlo hhi => ?_, fun hlower hupper hdigit => ?_⟩
    · rw [if_pos ⟨hlo, hhi⟩]
    · rw [if_neg (by omega), if_pos ⟨hlo, hhi⟩]
    · rw [if_neg (by omega), if_neg (by omega), if_pos ⟨hlo, hhi⟩]
    · rw [if_neg hlower, if_neg hupper, if_neg hdigit]
  · exact if_neg fun hshown => hshown.elim (fun hne => hne hzero) hspace

/-! ### What the calls write, and where (R152 to R163) -/

/-- A list of writes, all of them at positions below `n`. -/
def WritesBelow (n : Nat) (prog : List Instr) : Prop := ∀ i ∈ prog, ∃ a b, i = .wrat a b ∧ a.toNat < n

theorem writesBelow_nil (n : Nat) : WritesBelow n [] := fun _ hi => nomatch hi

theorem WritesBelow.append {n : Nat} {xs ys : List Instr} (hx : WritesBelow n xs) (hy : WritesBelow n ys) :
    WritesBelow n (xs ++ ys) := List.forall_mem_append.2 ⟨hx, hy⟩

theorem WritesBelow.mono {m n : Nat} {prog : List Instr} (h : WritesBelow m prog) (hmn : m ≤ n) :
    WritesBelow n prog := by
  intro i hi
  obtain ⟨a, b, rfl, ha⟩ := h i hi
  exact ⟨a, b, rfl, ha.trans_le hmn⟩

theorem setRaw_eq_wrat (h : HostConfig) (e : EncoderState) (pos byte : Byte) :
    ∃ b, setRaw h e pos byte = .wrat pos b := ⟨_, rfl⟩

theorem writesBelow_setRaw (h : HostConfig) (e : EncoderState) (pos byte : Byte) {n : Nat} (hpos : pos.toNat < n) :
    WritesBelow n [setRaw h e pos byte] := by
  obtain ⟨b, hb⟩ := setRaw_eq_wrat h e pos byte
  intro i hi
  exact ⟨pos, b, (List.mem_singleton.1 hi).trans hb, hpos⟩

theorem writesBelow_clear (h : HostConfig) (c : Config) (e : EncoderState) :
    WritesBelow c.digitCount (clear h c e) := by
  intro i hi
  obtain ⟨p, hp, rfl⟩ := List.mem_map.1 hi
  exact ⟨_, _, rfl, (toNat_ofNat_le p).trans_lt (List.mem_range.1 hp)⟩

/-- A descending run of writes stays at or below its offset. -/
theorem writesBelow_descending {write : Nat → Byte → Instr} (hwrite : ∀ k pos, ∃ b, write k pos = .wrat pos b)
    {offset : Byte} {n : Nat} (hn : n ≤ room offset) :
    WritesBelow (offset.toNat + 1) (descending write offset n) := by
  intro i hi
  obtain ⟨k, pos, rfl, hpos⟩ := exists_of_mem_descending hn hi
  obtain ⟨b, hb⟩ := hwrite k pos
  exact ⟨pos, b, hb, Nat.lt_succ_of_le hpos⟩

theorem writesBelow_setDec_right (h : HostConfig) (e : EncoderState) (value : Nat) (offset : Byte) :
    WritesBelow (offset.toNat + 1) (setDec h e value offset .right) := by
  rw [setDec_right_eq_descending]
  exact writesBelow_descending (fun k pos => setRaw_eq_wrat h e pos _) (Nat.min_le_right _ _)

theorem writesBelow_setDec_left (h : HostConfig) (e : EncoderState) (value : Nat) (offset : Byte) :
    WritesBelow (offset.toNat + extraDigits value value + 1) (setDec h e value offset .left) := by
  have hle : (offset + BitVec.ofNat 8 (extraDigits value value)).toNat ≤ offset.toNat + extraDigits value value := by
    rw [BitVec.toNat_add]
    exact (Nat.mod_le _ _).trans (Nat.add_le_add_left (toNat_ofNat_le _) _)
  exact (writesBelow_setDec_right h e value _).mono (Nat.succ_le_succ hle)

theorem digitOrPad_eq_wrat (h : HostConfig) (e : EncoderState) (r : Radix) (pad : Byte) (value k : Nat) (pos : Byte) :
    ∃ b, digitOrPad h e r pad value k pos = .wrat pos b := by
  unfold digitOrPad
  split
  · exact setRaw_eq_wrat h e pos _
  · exact setRaw_eq_wrat h e pos pad

theorem writesBelow_setPadded (h : HostConfig) (e : EncoderState) (r : Radix) (value width : Nat)
    (offset pad : Byte) : WritesBelow (offset.toNat + 1) (setPadded h e r value offset width pad) := by
  rw [setPadded_eq_descending]
  exact writesBelow_descending (digitOrPad_eq_wrat h e r pad value) (Nat.min_le_right _ _)

theorem writesBelow_setChar (h : HostConfig) (e : EncoderState) (pos c : Byte) {n : Nat} (hpos : pos.toNat < n) :
    WritesBelow n (setChar h e pos c) := by
  unfold setChar
  split
  · exact writesBelow_setRaw h e pos _ hpos
  · exact writesBelow_nil n

theorem stringChars_cons {c : Byte} (hc : c ≠ 0) (s : List Byte) : stringChars (c :: s) = c :: stringChars s :=
  List.takeWhile_cons_of_pos (by simpa using hc)

theorem writesBelow_setStr (h : HostConfig) (e : EncoderState) (offset : Byte) (s : List Byte) :
    WritesBelow (offset.toNat + (stringChars s).length) (setStr h e offset s) := by
  induction s generalizing offset with
  | nil => exact writesBelow_nil _
  | cons c rest ih =>
    rw [setStr]
    split
    case isTrue => exact writesBelow_nil _
    case isFalse hc =>
      rw [stringChars_cons hc, List.length_cons]
      have hnext : (offset + 1).toNat ≤ offset.toNat + 1 := Nat.mod_le _ _
      exact (writesBelow_setChar h e offset c (by omega)).append ((ih (offset + 1)).mono (by omega))

/-! ### The frames of `SCROLL` (R163) -/

@[simp] theorem issued_append (xs ys : List HostAction) : issued (xs ++ ys) = issued xs ++ issued ys := by
  induction xs with
  | nil => rfl
  | cons x xs ih => cases x <;> simp [issued, ih]

@[simp] theorem issued_map_issue (prog : List Instr) : issued (prog.map .issue) = prog := by
  induction prog with
  | nil => rfl
  | cons i rest ih => simp [issued, ih]

/-- A frame pauses nowhere, and writes only the positions it fills. -/
theorem scrollFrame_writes (h : HostConfig) (e : EncoderState) (s : List Byte) (frame left p : Nat) :
    ∃ prog, (scrollFrame h e s frame left p).1 = prog.map .issue ∧ WritesBelow (p + left) prog := by
  induction left generalizing p with
  | zero => exact ⟨[], rfl, writesBelow_nil _⟩
  | succ left ih =>
    rw [scrollFrame]
    split
    case isTrue => exact ⟨[], rfl, writesBelow_nil _⟩
    case isFalse =>
      obtain ⟨later, hlater, hbelow⟩ := ih (p + 1)
      have hp : (BitVec.ofNat 8 p : Byte).toNat < p + (left + 1) := (toNat_ofNat_le p).trans_lt (by omega)
      exact ⟨_ ++ later, by rw [List.map_append, ← hlater],
        (writesBelow_setChar h e _ _ hp).append (hbelow.mono (by omega))⟩

/-- The call returns in the frame whose last window character is the terminator. -/
theorem scrollFrame_returns_iff (h : HostConfig) (e : EncoderState) (s : List Byte) (frame left p : Nat) :
    (scrollFrame h e s frame (left + 1) p).2 = true ↔ charAt s (frame + p + left) = 0 := by
  induction left generalizing p with
  | zero =>
    rw [scrollFrame]
    split
    case isTrue hends => exact iff_of_true rfl hends.2
    case isFalse hgoes => exact iff_of_false Bool.false_ne_true fun hzero => hgoes ⟨rfl, hzero⟩
  | succ left ih =>
    have hindex : frame + p + (left + 1) = frame + (p + 1) + left := by omega
    rw [scrollFrame, if_neg (by simp), hindex]
    exact ih (p + 1)

/-- The characters of a string are not zero, its terminator is. -/
theorem charAt_eq_zero_iff {s : List Byte} {i : Nat} (hi : i ≤ (stringChars s).length) :
    charAt s i = 0 ↔ i = (stringChars s).length := by
  unfold charAt
  rcases hi.lt_or_eq with hlt | rfl
  · have hne : (stringChars s)[i] ≠ 0 := by
      simpa using List.mem_takeWhile_imp (List.getElem_mem hlt : (stringChars s)[i] ∈ stringChars s)
    rw [if_pos hlt, List.getD_eq_getElem _ _ hlt]
    exact iff_of_false hne hlt.ne
  · simp

theorem countP_wait_map_issue (prog : List Instr) (ms : Nat) :
    (prog.map HostAction.issue).countP (fun x => x == .wait ms) = 0 := by
  simp [List.countP_map, List.countP_eq_zero]

/-- `r` frames before the one that meets the terminator, the scroll pauses `r` times more, and further frames add
nothing. -/
theorem scrollFrames_stop (h : HostConfig) (c : Config) (e : EncoderState) (s : List Byte)
    (hdigits : 1 ≤ c.digitCount) {r f : Nat} (hlast : f + r + c.digitCount = (stringChars s).length + 1) :
    ∃ acts, acts.countP (fun x => x == .wait scrollFrameMs) = r ∧
      ∀ count, r < count → scrollFrames h c e s count f = acts := by
  obtain ⟨left, hleft⟩ : ∃ left, c.digitCount = left + 1 := ⟨c.digitCount - 1, by omega⟩
  induction r generalizing f with
  | zero =>
    obtain ⟨prog, hprog, -⟩ := scrollFrame_writes h e s f c.digitCount 0
    have hreturns : (scrollFrame h e s f c.digitCount 0).2 = true := by
      rw [hleft, scrollFrame_returns_iff, charAt_eq_zero_iff (by omega)]
      omega
    refine ⟨prog.map .issue, countP_wait_map_issue prog _, fun count hcount => ?_⟩
    obtain ⟨count, rfl⟩ := Nat.exists_eq_succ_of_ne_zero hcount.ne'
    rw [scrollFrames, if_pos hreturns, hprog]
  | succ r ih =>
    obtain ⟨prog, hprog, -⟩ := scrollFrame_writes h e s f c.digitCount 0
    have hgoes : ¬ (scrollFrame h e s f c.digitCount 0).2 = true := by
      rw [hleft, scrollFrame_returns_iff, charAt_eq_zero_iff (by omega)]
      omega
    obtain ⟨acts, hpauses, hacts⟩ := ih (f := f + 1) (by omega)
    refine ⟨prog.map .issue ++ .wait scrollFrameMs :: acts, ?_, fun count hcount => ?_⟩
    · rw [List.countP_append, countP_wait_map_issue, List.countP_cons, hpauses]
      simp
    · obtain ⟨count, rfl⟩ := Nat.exists_eq_succ_of_ne_zero (Nat.ne_zero_of_lt hcount)
      rw [scrollFrames, if_neg hgoes, hprog, hacts count (by omega)]

/-- Settles O60: the frame that meets the terminator is `n + 1 - DIGIT_COUNT` frames after the first. -/
theorem scrollEndsAtTheTerminator : Obligations.ScrollEndsAtTheTerminator := by
  intro h c e hdigits
  refine ⟨rfl, ?_⟩
  intro s n
  refine ⟨fun hempty => ?_, fun hne hlong => ?_, fun hne hshort => ?_⟩
  · exact if_pos (List.length_eq_zero_iff.1 hempty)
  · obtain ⟨acts, hpauses, hacts⟩ :=
      scrollFrames_stop h c e s hdigits (r := n + 1 - c.digitCount) (f := 0) (by omega)
    refine ⟨acts, ?_, hpauses, hacts⟩
    rw [scroll, if_neg (mt List.length_eq_zero_iff.2 hne), if_pos ⟨hdigits, hlong⟩, hacts _ (by omega)]
  · rw [scroll, if_neg (mt List.length_eq_zero_iff.2 hne), if_neg (by omega)]

theorem writesBelow_scrollFrames (h : HostConfig) (c : Config) (e : EncoderState) (s : List Byte) (count f : Nat) :
    WritesBelow c.digitCount (issued (scrollFrames h c e s count f)) := by
  induction count generalizing f with
  | zero => exact writesBelow_nil _
  | succ count ih =>
    obtain ⟨prog, hprog, hbelow⟩ := scrollFrame_writes h e s f c.digitCount 0
    rw [Nat.zero_add] at hbelow
    rw [scrollFrames, hprog]
    split
    case isTrue => rwa [issued_map_issue]
    case isFalse =>
      rw [issued_append, issued_map_issue]
      exact hbelow.append (ih (f + 1))

theorem writesBelow_scroll {h : HostConfig} {c : Config} {e : EncoderState} {s : Option (List Byte)}
    {acts : List HostAction} (hacts : scroll h c e s = some acts) : WritesBelow c.digitCount (issued acts) := by
  cases s with
  | none =>
    obtain rfl : [] = acts := Option.some.inj hacts
    exact writesBelow_nil _
  | some s =>
    rw [scroll] at hacts
    split at hacts
    case isTrue =>
      obtain rfl : [] = acts := Option.some.inj hacts
      exact writesBelow_nil _
    case isFalse =>
      obtain ⟨-, hframes⟩ := Option.ite_none_right_eq_some.1 hacts
      obtain rfl := Option.some.inj hframes
      exact writesBelow_scrollFrames h c e s _ 0

/-! ### Calls and programs (R164, R88, R219) -/

/-- `CMD` or `WRAT`, all that a call other than `INIT` issues. -/
def IsComposite (i : Instr) : Prop := (∃ a, i = .cmd a) ∨ ∃ a b, i = .wrat a b

/-- What a call other than `INIT` may issue: `CMD`, or `WRAT` at a position below `n`. -/
def CompositesBelow (n : Nat) (prog : List Instr) : Prop :=
  ∀ i ∈ prog, (∃ a, i = .cmd a) ∨ ∃ a b, i = .wrat a b ∧ a.toNat < n

theorem WritesBelow.compositesBelow {n : Nat} {prog : List Instr} (h : WritesBelow n prog) :
    CompositesBelow n prog := fun i hi => .inr (h i hi)

theorem CompositesBelow.isComposite {n : Nat} {prog : List Instr} (h : CompositesBelow n prog) :
    ∀ i ∈ prog, IsComposite i := by
  intro i hi
  rcases h i hi with hcmd | ⟨a, b, hwrat, -⟩
  · exact .inl hcmd
  · exact .inr ⟨a, b, hwrat⟩

theorem CompositesBelow.positionInRange {n : Nat} {prog : List Instr} {c : Config} (h : CompositesBelow n prog)
    (hn : n ≤ c.digitCount) : ∀ i ∈ prog, i.positionInRange c = true := by
  intro i hi
  rcases h i hi with ⟨a, rfl⟩ | ⟨a, b, rfl, ha⟩
  · rfl
  · exact decide_eq_true (ha.trans_le hn)

theorem compositesBelow_bright (n : Nat) (c : Config) (level : Byte) : CompositesBelow n [bright c level] :=
  fun _ hi => .inl ⟨_, List.mem_singleton.1 hi⟩

/-- The positions a call other than `INIT` writes are below this, whatever its arguments. -/
def EncoderCall.reach (c : Config) : EncoderCall → Nat
  | .setRaw pos _ | .setDigit pos _ | .setChar pos _ => pos.toNat + 1
  | .setDec _ offset .right | .setDecPad _ offset _ _ | .setHexPad _ offset _ _ => offset.toNat + 1
  | .setDec value offset .left => offset.toNat + extraDigits value value + 1
  | .setStr offset s => offset.toNat + (stringChars s).length
  | .init | .clear | .bright _ | .setDots _ | .scroll _ => c.digitCount

theorem lt_of_offsetInRange {c : Config} {n : Nat} (h : offsetInRange c n = true) : n < c.digitCount :=
  of_decide_eq_true (Bool.and_eq_true_iff.1 h).1

theorem EncoderCall.reach_le_of_offsetFits {c : Config} {k : EncoderCall} (h : k.offsetFits c = true) :
    k.reach c ≤ c.digitCount := by
  cases k with
  | setRaw | setDigit | setChar => exact of_decide_eq_true h
  | setDecPad | setHexPad => exact lt_of_offsetInRange h
  | setDec value offset align => cases align <;> exact lt_of_offsetInRange h
  | setStr => exact of_decide_eq_true (Bool.and_eq_true_iff.1 h).2
  | init | clear | bright | setDots | scroll => exact le_rfl

theorem CompositesBelow.of_actions_eq {n : Nat} {prog : List Instr} {acts : List HostAction}
    (h : CompositesBelow n prog) (hacts : some (prog.map HostAction.issue) = some acts) :
    CompositesBelow n (issued acts) := by
  obtain rfl := Option.some.inj hacts
  rwa [issued_map_issue]

/-- Every call but `INIT` issues `CMD`, or `WRAT` below its reach. -/
theorem compositesBelow_issued_actions {h : HostConfig} {c : Config} {e : EncoderState} {k : EncoderCall}
    {acts : List HostAction} (hk : k ≠ .init) (hacts : k.actions h c e = some acts) :
    CompositesBelow (k.reach c) (issued acts) := by
  cases k with
  | init => exact absurd rfl hk
  | clear => exact (writesBelow_clear h c e).compositesBelow.of_actions_eq hacts
  | bright level => exact (compositesBelow_bright _ c level).of_actions_eq hacts
  | setDots mask => exact (writesBelow_nil _).compositesBelow.of_actions_eq hacts
  | setRaw pos byte =>
    exact (writesBelow_setRaw h e pos byte (Nat.lt_succ_self _)).compositesBelow.of_actions_eq hacts
  | setDigit pos n =>
    exact (writesBelow_setRaw h e pos _ (Nat.lt_succ_self _)).compositesBelow.of_actions_eq hacts
  | setDec value offset align =>
    cases align with
    | right => exact (writesBelow_setDec_right h e value offset).compositesBelow.of_actions_eq hacts
    | left => exact (writesBelow_setDec_left h e value offset).compositesBelow.of_actions_eq hacts
  | setDecPad value offset width pad =>
    exact (writesBelow_setPadded h e .decimal value width offset pad).compositesBelow.of_actions_eq hacts
  | setHexPad value offset width pad =>
    exact (writesBelow_setPadded h e .hexadecimal value width offset pad).compositesBelow.of_actions_eq hacts
  | setChar pos ch =>
    exact (writesBelow_setChar h e pos ch (Nat.lt_succ_self _)).compositesBelow.of_actions_eq hacts
  | setStr offset s => exact (writesBelow_setStr h e offset s).compositesBelow.of_actions_eq hacts
  | scroll s => exact (writesBelow_scroll hacts).compositesBelow

theorem actions_of_not_scroll (h : HostConfig) (c : Config) (e : EncoderState) {k : EncoderCall}
    (hk : ∀ s, k ≠ .scroll s) : ∃ acts, k.actions h c e = some acts := by
  cases k with
  | scroll s => exact absurd rfl (hk s)
  | _ => exact ⟨_, rfl⟩

/-- Settles O53: each call issues `CMD`, or `WRAT` below its reach; `SETDOTS` and `BRIGHT` are rows R154 and R153. -/
theorem encoderIssuesOnlyComposites : Obligations.EncoderIssuesOnlyComposites := by
  intro h c e k
  refine ⟨fun acts hk hacts => (compositesBelow_issued_actions hk hacts).isComposite,
    actions_of_not_scroll h c e, ?_, ?_⟩
  · rintro mask rfl
    rfl
  · rintro level rfl
    rfl

theorem issuedByCalls_cons_eq_some {h : HostConfig} {c : Config} {e : EncoderState} {k : EncoderCall}
    {ks : List EncoderCall} {prog : List Instr} (hprog : issuedByCalls h c e (k :: ks) = some prog) :
    ∃ acts rest, k.actions h c e = some acts ∧ issuedByCalls h c (k.after e) ks = some rest ∧
      prog = issued acts ++ rest := by
  rw [issuedByCalls] at hprog
  split at hprog
  case h_1 acts rest hacts hrest => exact ⟨acts, rest, hacts, hrest, (Option.some.inj hprog).symm⟩
  all_goals exact nomatch hprog

/-- What every call of a sequence keeps to, its whole program keeps to. -/
theorem issuedByCalls_forall {P : Instr → Prop} {h : HostConfig} {c : Config} {e : EncoderState}
    {calls : List EncoderCall} {prog : List Instr}
    (hcalls : ∀ k ∈ calls, ∀ e acts, k.actions h c e = some acts → ∀ i ∈ issued acts, P i)
    (hprog : issuedByCalls h c e calls = some prog) : ∀ i ∈ prog, P i := by
  induction calls generalizing e prog with
  | nil =>
    obtain rfl : [] = prog := Option.some.inj hprog
    exact fun i hi => nomatch hi
  | cons k ks ih =>
    obtain ⟨acts, rest, hacts, hrest, rfl⟩ := issuedByCalls_cons_eq_some hprog
    obtain ⟨hk, hks⟩ := List.forall_mem_cons.1 hcalls
    exact List.forall_mem_append.2 ⟨hk e acts hacts, ih hks hrest⟩

theorem issuedByCalls_init_cons {h : HostConfig} {c : Config} {e : EncoderState} {calls : List EncoderCall}
    {prog : List Instr} (hcalls : ∀ k ∈ calls, k ≠ .init)
    (hprog : issuedByCalls h c e (.init :: calls) = some prog) :
    ∃ rest, issuedByCalls h c .init calls = some rest ∧ prog = initSequence h c ++ rest ∧
      ∀ i ∈ rest, IsComposite i := by
  obtain ⟨acts, rest, hacts, hrest, rfl⟩ := issuedByCalls_cons_eq_some hprog
  obtain rfl : (initSequence h c).map .issue = acts := Option.some.inj hacts
  rw [issued_map_issue]
  exact ⟨rest, hrest, rfl, issuedByCalls_forall
    (fun k hk e acts hacts => (compositesBelow_issued_actions (hcalls k hk) hacts).isComposite) hrest⟩

/-- The boot sequence is one `SETUP` and then operations that stay in range. -/
theorem initSequence_eq_setup_cons (h : HostConfig) (c : Config) :
    ∃ body, initSequence h c = .setup :: body ∧ CompositesBelow c.digitCount body :=
  ⟨_, rfl, List.forall_mem_cons.2 ⟨.inl ⟨_, rfl⟩, List.forall_mem_cons.2 ⟨.inl ⟨_, rfl⟩,
    (writesBelow_clear h c .init).compositesBelow⟩⟩⟩

theorem framedBody_of_composites {body : List Instr} (h : ∀ i ∈ body, IsComposite i) : FramedBody body := by
  induction body with
  | nil => exact FramedBody.done
  | cons i rest ih =>
    obtain ⟨hi, hrest⟩ := List.forall_mem_cons.1 h
    rcases hi with ⟨a, rfl⟩ | ⟨a, b, rfl⟩
    · exact FramedBody.cmd a (ih hrest)
    · exact FramedBody.wrat a b (ih hrest)

theorem IsComposite.wf {i : Instr} (h : IsComposite i) {c : Config} (hpos : i.positionInRange c = true) :
    i.wf c = true := by
  rcases h with ⟨a, rfl⟩ | ⟨a, b, rfl⟩
  · rfl
  · rw [Instr.wf, hpos]
    rfl

/-- The contract admits the boot sequence with any operations in range after it, if they are `CMD` and `WRAT`. -/
theorem admits_initSequence_append (h : HostConfig) (c : Config) {rest : List Instr}
    (hrest : ∀ i ∈ rest, IsComposite i) (hpos : ∀ i ∈ rest, i.positionInRange c = true) :
    admits c (initSequence h c ++ rest) = true := by
  obtain ⟨body, hinit, hbody⟩ := initSequence_eq_setup_cons h c
  have hcomposite : ∀ i ∈ body ++ rest, IsComposite i := List.forall_mem_append.2 ⟨hbody.isComposite, hrest⟩
  have hrange : ∀ i ∈ body ++ rest, i.positionInRange c = true :=
    List.forall_mem_append.2 ⟨hbody.positionInRange le_rfl, hpos⟩
  rw [hinit, List.cons_append, contractIsTheFramingGrammar]
  exact ⟨⟨_, rfl, framedBody_of_composites hcomposite⟩,
    List.forall_mem_cons.2 ⟨rfl, fun i hi => (hcomposite i hi).wf (hrange i hi)⟩⟩

theorem constructsOnce_cases {calls : List EncoderCall} (h : constructsOnce calls = true) :
    ∃ ks, calls = .init :: ks ∧ ∀ k ∈ ks, k ≠ .init := by
  cases calls with
  | nil => exact nomatch h
  | cons k ks =>
    simp only [constructsOnce, Bool.and_eq_true, beq_iff_eq, List.all_eq_true, bne_iff_ne] at h
    obtain ⟨rfl, hks⟩ := h
    exact ⟨ks, rfl, hks⟩

/-- What the host's check of its calls lets pass. -/
theorem hostProgram?_eq_some {p : ParameterSet} {calls : List EncoderCall} {prog : List Instr}
    (h : hostProgram? p calls = some prog) :
    constructsOnce calls = true ∧ (∀ k ∈ calls, k.offsetFits p.block = true) ∧
      issuedByCalls p.host p.block .init calls = some prog := by
  obtain ⟨hchecks, hprog⟩ := Option.ite_none_right_eq_some.1 h
  simp only [Bool.and_eq_true, List.all_eq_true, EncoderCall.admitted] at hchecks
  obtain ⟨⟨-, honce⟩, hadmitted⟩ := hchecks
  exact ⟨honce, fun k hk => (hadmitted k hk).2, hprog⟩

/-- Settles O54: the calls after `INIT` issue composites. They are in range by the premise, or because the reach of
every admitted call is. -/
theorem encoderKeepsTheContract : Obligations.EncoderKeepsTheContract := by
  refine ⟨fun h c e calls prog _ hcalls hprog hpos => ?_, fun p calls prog hprog => ?_⟩
  · obtain ⟨rest, -, rfl, hrest⟩ := issuedByCalls_init_cons hcalls hprog
    exact admits_initSequence_append h c hrest (List.forall_mem_append.1 hpos).2
  · obtain ⟨honce, hfits, hissued⟩ := hostProgram?_eq_some hprog
    obtain ⟨ks, rfl, hks⟩ := constructsOnce_cases honce
    obtain ⟨rest, hrestcalls, rfl, hrest⟩ := issuedByCalls_init_cons hks hissued
    have hpos : ∀ i ∈ rest, i.positionInRange p.block = true :=
      issuedByCalls_forall (fun k hk e acts hacts => (compositesBelow_issued_actions (hks k hk) hacts).positionInRange
        (EncoderCall.reach_le_of_offsetFits (hfits k (List.mem_cons_of_mem _ hk)))) hrestcalls
    exact ⟨admits_initSequence_append p.host p.block hrest hpos, rest, rfl, hrest⟩

end Sys2Proof.Machine
end

section
/-! Proofs for 60_exceptions.md: every operation and every step answers a next state (R190, R100). -/

namespace Sys2Proof.Machine

/-- With nothing presented an idle block stays as it is (R201). -/
theorem step_of_quiet {s : State} (hb : s.busy = false) (hh : s.host = []) : step s = .next s := by
  simp [step, hh, hb]

/-- A busy block ignores the operation, an idle one runs it to its end. -/
theorem exists_exec_eq_next (i : Instr) (s : State) : ∃ t, exec i s = .next t := by
  cases hb : s.busy with
  | true => exact ⟨s, exec_of_busy i hb⟩
  | false =>
    obtain ⟨t, ht, -⟩ := exec_ranTo i hb
    exact ⟨t, ht⟩

theorem exists_step_eq_next_of_idle {s : State} (hb : s.busy = false) : ∃ t, step s = .next t := by
  rcases hh : s.host with _ | ⟨w | _, rest⟩
  · exact ⟨s, step_of_quiet hb hh⟩
  · rw [step_of_idle hb hh]
    exact exists_exec_eq_next (decode w) { s with host := rest }
  · exact ⟨_, step_of_reset hh⟩

/-- A reset wins; otherwise the operation in flight is finished, or the block is idle. -/
theorem exists_step_eq_next (s : State) : ∃ t, step s = .next t := by
  by_cases hreset : ∃ rest, s.host = .reset :: rest
  · obtain ⟨rest, hh⟩ := hreset
    exact ⟨_, step_of_reset hh⟩
  · cases hb : s.busy with
    | true => exact ⟨drain s, step_of_busy hb (not_exists.1 hreset)⟩
    | false => exact exists_step_eq_next_of_idle hb

/-- Settles O17: an operation is ignored or run to its end, and a step resets, finishes the operation in flight, runs
the word presented or stays. -/
theorem nothingEverStops : Obligations.NothingEverStops :=
  ⟨exists_exec_eq_next, exists_step_eq_next⟩

end Sys2Proof.Machine
end

section
/-! Proofs for 70_reset_and_hazards.md: the state after reset (R210), the boot sequence (R212), operations before `SETUP`
(R214), and the time that settle delays take (R217, R224). -/

namespace Sys2Proof.Machine

/-! ### The state after reset (R210, R37) -/

/-- Nothing is known of a slave before the block has sent anything. -/
theorem slave_of_trace_nil {s : State} (h : s.trace = []) : s.slave = .unknown := by
  rw [State.slave, h]
  rfl

/-- Settles O29: a reset tick is `resetBlock`, whatever the block was doing. -/
theorem resetState : Obligations.ResetState := by
  refine ⟨fun c => ⟨rfl, rfl, rfl, rfl⟩, fun p s hr => ?_⟩
  rw [tick_of_rst hr]
  exact ⟨rfl, rfl, rfl, rfl, rfl, slave_of_trace_nil rfl, rfl⟩

/-! ### Released lines (R214) -/

/-- The block drives neither line. -/
def Lines.IsReleased (l : Lines) : Prop := l.sclDir = .input ∧ l.sdaDir = .input

theorem Lines.IsReleased.own {l : Lines} (h : l.IsReleased) : l.own = (true, true) := by
  rw [Lines.own, h.1, h.2]
  rfl

/-- Lines that end released were never driven on the way. -/
theorem KeepsDriven.isReleased {l l' : Lines} (h : KeepsDriven l l') (h' : l'.IsReleased) : l.IsReleased := by
  have input_of {d d' : Direction} (hd : d = .output → d' = .output) (hd' : d' = .input) : d = .input := by
    cases d with
    | input => rfl
    | output => exact absurd (hd'.symm.trans (hd rfl)) (by decide)
  exact ⟨input_of h.1 h'.1, input_of h.2 h'.2⟩

/-- A list that leaves the lines released moves no level on the wire. -/
theorem symbolsFrom_of_linesAfter_isReleased (ms : List MicroOp) {l : Lines} (h : (linesAfter ms l).IsReleased) :
    symbolsFrom l (ms.map MicroOp.event) = [] := by
  induction ms generalizing l with
  | nil => rfl
  | cons m ms ih =>
    have hl : l.IsReleased := (linesAfter_keepsDriven (m :: ms) l).isReleased h
    have hm : (m.onLines l).IsReleased := (linesAfter_keepsDriven ms _).isReleased h
    rw [List.map_cons, symbolsFrom_cons, event_onLines, ih h, hl.own, hm.own, symbolBetween_self]
    rfl

/-- Settles O37: only `SETUP` ends with driven lines, and a list that ends with released lines gives no symbol. -/
theorem nothingReachesTheWireBeforeSetup : Obligations.NothingReachesTheWireBeforeSetup := by
  intro i s t hinv hb hscl hi hexec
  obtain ⟨t', ht', hran⟩ := exec_ranTo i hb
  obtain rfl : t' = t := Host.Outcome.next.inj (ht'.symm.trans hexec)
  obtain ⟨-, hagree⟩ := hinv.boundary hb
  obtain ⟨hendScl, hendSda⟩ := endLines_directions s.lines hi
  have hend : (endLines s.lines i).IsReleased := ⟨hendScl.trans hscl, hendSda.trans (hagree.symm.trans hscl)⟩
  have hreleased : t'.lines.IsReleased := hran.lines ▸ hend
  refine ⟨hran.lines.trans (linesAfter_microOps _ _ _).symm, hreleased.1, hreleased.2, hreleased.own, ?_⟩
  rw [hran.trace, symbols_append, hinv.replays,
    symbolsFrom_of_linesAfter_isReleased _ (linesAfter_microOps s.cfg i s.lines ▸ hend), List.append_nil]

/-! ### The time of a realisation (R217, R224) -/

theorem settleCount_cons (e : Event) (es : List Event) :
    settleCount (e :: es) = settleCount es + if e = .settle then 1 else 0 := by
  simp [settleCount, List.countP_cons]

theorem elapsed_cons (x : Event × Nat) (tt : TimedTrace) : elapsed (x :: tt) = x.2 + elapsed tt := List.sum_cons

/-- Every settle event of a realisation has its cycles, whatever the other events take. -/
theorem settleCount_le_elapsed {c : Config} {es : List Event} {tt : TimedTrace} (h : Realises c es tt) :
    c.settleCycles * settleCount es ≤ elapsed tt := by
  obtain ⟨rfl, hcycles⟩ := h
  induction tt with
  | nil => exact Nat.le_refl 0
  | cons x tt ih =>
    obtain ⟨hx, htt⟩ := List.forall_mem_cons.1 hcycles
    rw [List.map_cons, settleCount_cons, elapsed_cons, Nat.mul_add, Nat.add_comm]
    refine Nat.add_le_add ?_ (ih htt)
    by_cases hsettle : x.1 = .settle
    · simpa [hsettle] using hx hsettle
    · simp [hsettle]

/-- The settle delays are one of the totals of R87. -/
theorem minDuration_eq_totals (ms : List MicroOp) : minDuration ms = (totals ms).2.1 := rfl

/-- Settles O48: a realisation has the settle events of its list, and the totals of each list (R87) count them. -/
theorem settleDelaysBoundTheTime : Obligations.SettleDelaysBoundTheTime :=
  ⟨fun _ _ _ => settleCount_le_elapsed, fun c a b => by simp [microOps, minDuration_eq_totals]⟩

/-! ### The boot sequence (R212, R151) -/

/-- `CLEAR` with no dot in the mask: `WRAT p, 0` for the first `n` positions, in rising order. -/
def blankWrites (n : Nat) : List Instr := (List.range n).map fun p => .wrat (BitVec.ofNat 8 p) 0

theorem blankWrites_succ (n : Nat) : blankWrites (n + 1) = blankWrites n ++ [.wrat (BitVec.ofNat 8 n) 0] := by
  rw [blankWrites, List.range_succ, List.map_append]
  rfl

/-- No bit of the mask is set at program start, so no byte gets a dot. -/
theorem clear_init (h : HostConfig) (c : Config) : clear h c .init = blankWrites c.digitCount := by
  have hdots (p : Nat) : EncoderState.init.dotMask.testBit p = false := Nat.zero_testBit p
  simp only [clear, setRaw, hdots, Bool.false_eq_true, if_false]
  rfl

/-- The boot sequence after its `SETUP`. -/
def bootBody (h : HostConfig) (c : Config) : List Instr :=
  .cmd c.cmdDataAuto :: .cmd (displayControlByte c (h.defaultBrightness.setWidth 8)) :: blankWrites c.digitCount

theorem initSequence_eq_setup_bootBody (h : HostConfig) (c : Config) : initSequence h c = .setup :: bootBody h c := by
  rw [initSequence, clear_init]
  rfl

theorem length_cmdList (a : Byte) : (cmdList a).length = 59 := congrArg Prod.fst (totals_cmdList a)

theorem length_wratList (c : Config) (a b : Byte) : (wratList c a b).length = 164 :=
  congrArg Prod.fst (totals_wratList c a b)

theorem length_blankWrites_microOps (c : Config) (n : Nat) :
    ((blankWrites n).flatMap (microOps c)).length = 164 * n := by
  induction n with
  | zero => rfl
  | succ n ih =>
    rw [blankWrites_succ, List.flatMap_append, List.length_append, ih, List.flatMap_singleton, microOps, length_wratList,
      Nat.mul_succ]

/-- Settles O51: the three operations before the writes have 4, 59 and 59 micro-operations. -/
theorem bootSequenceCounts : Obligations.BootSequenceCounts := by
  intro h c
  rw [initSequence_eq_setup_bootBody]
  refine ⟨rfl, ?_⟩
  have hsetup : (microOps c .setup).length = 4 := rfl
  simp only [bootBody, List.flatMap_cons, List.length_append, hsetup, length_blankWrites_microOps]
  simp only [microOps, length_cmdList]
  omega

/-! ### Composites from a bus between frames (R79, R80) -/

/-- The frames of a composite, `CMD` or `WRAT`. -/
def compositeFrames (c : Config) : Instr → List FrameItem
  | .cmd a => [sentFrame [a]]
  | .wrat a b => [sentFrame [c.cmdDataFixed], sentFrame [addressByte c a, b]]
  | .setup | .start | .stop | .sendb _ | .reserved6 | .reserved7 => []

theorem sendsItems_nil : SendsItems [] [] where
  lines := rfl
  read before := by rw [List.append_nil]; rfl

theorem sendsItems_composites (c : Config) {prog : List Instr} (h : ∀ i ∈ prog, IsComposite i) :
    SendsItems (prog.flatMap (microOps c)) (prog.flatMap (compositeFrames c)) := by
  induction prog with
  | nil => exact sendsItems_nil
  | cons i prog ih =>
    obtain ⟨hi, hprog⟩ := List.forall_mem_cons.1 h
    rw [List.flatMap_cons, List.flatMap_cons]
    rcases hi with ⟨a, rfl⟩ | ⟨a, b, rfl⟩
    · exact (sendsItems_cmdList a).append (ih hprog)
    · exact (sendsItems_wratList c a b).append (ih hprog)

/-- Composites leave the bus between frames, and the slave has seen their frames in order. -/
theorem State.BetweenFrames.runAll_composites {s : State} (hs : s.BetweenFrames) {prog : List Instr}
    (h : ∀ i ∈ prog, IsComposite i) :
    ∃ t, runAll prog s = .next t ∧ t.BetweenFrames ∧
      t.slave = s.slave.reactAll s.cfg (prog.flatMap (compositeFrames s.cfg)) := by
  obtain ⟨t, ht, hran⟩ := runAll_ranTo prog hs.idle
  obtain ⟨hbetween, hframes⟩ := hs.of_ranTo (sendsItems_composites s.cfg h) hran
  exact ⟨t, ht, hbetween, slave_eq_reactAll hran.params hframes⟩

/-! ### The slave at boot (R62, R82) -/

/-- With distinct classes exactly the row of the auto-increment mode applies. -/
theorem command_cmdDataAuto {c : Config} (h : ClassesDistinct c) (s : Slave) :
    s.command c c.cmdDataAuto = { s with mode := some .auto } := by
  obtain ⟨hfixed, -, hdisplay⟩ := h
  have hrows : (commandRows c c.cmdDataAuto s).filter Prod.fst = [(true, { s with mode := some .auto })] := by
    rw [commandRows, beq_self_eq_true, beq_eq_false_iff_ne.2 hfixed.symm, beq_eq_false_iff_ne.2 hdisplay]
    rfl
  rw [Slave.command, hrows]

/-- Masking off the bits that were merged in under the mask gives back an operand that has none of them. -/
theorem or_and_and_not_of_disjoint {w : Nat} {x mask : BitVec w} (h : x &&& mask = 0) (y : BitVec w) :
    (x ||| (y &&& mask)) &&& ~~~mask = x := by
  ext i hi
  have hbit : (x[i] && mask[i]) = false := by
    rw [← BitVec.getElem_and, h]
    simp
  simp only [BitVec.getElem_and, BitVec.getElem_or, BitVec.getElem_not]
  cases hm : mask[i] <;> simp_all

/-- R9 keeps the level's bits clear in `CMD_DISPLAY_ON`, so the command of R82 names its row. -/
theorem displayControlByte_and_not_mask {c : Config} (hc : c.cmdDisplayOn &&& brightMask = 0) (level : Byte) :
    displayControlByte c level &&& ~~~brightMask = c.cmdDisplayOn :=
  or_and_and_not_of_disjoint hc level

theorem brightMask_getLsbD : ∀ i < 3, brightMask.getLsbD i = true := by
  decide

theorem displayControlByte_level {c : Config} (hc : c.cmdDisplayOn &&& brightMask = 0) (level : BitVec 3) :
    (displayControlByte c (level.setWidth 8)).extractLsb' 0 3 = level := by
  apply BitVec.eq_of_getLsbD_eq
  intro i hi
  have hmask := brightMask_getLsbD i hi
  have hclear : c.cmdDisplayOn.getLsbD i = false := by
    have hbit : (c.cmdDisplayOn &&& brightMask).getLsbD i = false := by
      rw [hc]
      exact BitVec.getLsbD_zero
    rwa [BitVec.getLsbD_and, hmask, Bool.and_true] at hbit
  have hi8 : i < 8 := by omega
  simp only [displayControlByte, BitVec.getLsbD_extractLsb', BitVec.getLsbD_or, BitVec.getLsbD_and,
    BitVec.getLsbD_setWidth, Nat.zero_add, hmask, hclear, hi, hi8, decide_true, Bool.true_and, Bool.and_true,
    Bool.false_or]

/-- With distinct classes exactly the row of the display control applies. -/
theorem command_displayControlByte {c : Config} (h : ClassesDistinct c) (hc : c.cmdDisplayOn &&& brightMask = 0)
    (level : BitVec 3) (s : Slave) :
    s.command c (displayControlByte c (level.setWidth 8)) = { s with on := some true, level := some level } := by
  obtain ⟨-, hfixed, hauto⟩ := h
  have hdisplay : displayControlByte c (level.setWidth 8) &&& ~~~(0x07 : Byte) = c.cmdDisplayOn :=
    displayControlByte_and_not_mask hc _
  have hneFixed : displayControlByte c (level.setWidth 8) ≠ c.cmdDataFixed := fun heq => hfixed (heq ▸ hdisplay)
  have hneAuto : displayControlByte c (level.setWidth 8) ≠ c.cmdDataAuto := fun heq => hauto (heq ▸ hdisplay)
  have hrows : (commandRows c (displayControlByte c (level.setWidth 8)) s).filter Prod.fst =
      [(true, { s with on := some true, level := some level })] := by
    rw [commandRows, beq_eq_false_iff_ne.2 hneFixed, beq_eq_false_iff_ne.2 hneAuto, hdisplay, beq_self_eq_true,
      displayControlByte_level hc]
    rfl
  rw [Slave.command, hrows]

theorem reactAll_append (c : Config) (s : Slave) (xs ys : List FrameItem) :
    s.reactAll c (xs ++ ys) = (s.reactAll c xs).reactAll c ys := List.foldl_append

/-- What `n` blank writes leave of a slave. -/
structure Slave.BlankedTo (s : Slave) (n : Nat) (t : Slave) : Prop where
  on : t.on = s.on
  level : t.level = s.level
  mode : 0 < n → t.mode = some .fixed
  blank : ∀ p < n, t.shows p = some 0

theorem blankedTo_blankWrites {c : Config} (hc : c.wf = true) (hd : ClassesDistinct c) (s : Slave) {n : Nat}
    (hn : n ≤ c.digitCount) : s.BlankedTo n (s.reactAll c ((blankWrites n).flatMap (compositeFrames c))) := by
  induction n with
  | zero => exact ⟨rfl, rfl, nofun, nofun⟩
  | succ n ih =>
    have hbefore := ih (Nat.le_of_succ_le hn)
    obtain ⟨-, hpositions, -, -⟩ := (config_wf_iff c).1 hc
    have hpos : (BitVec.ofNat 8 n : Byte).toNat = n := Nat.mod_eq_of_lt (hpositions n hn).1
    have hlast := reactAll_wrat hc hd (a := BitVec.ofNat 8 n) (hpos.trans_lt hn) 0
      (s.reactAll c ((blankWrites n).flatMap (compositeFrames c)))
    rw [hpos] at hlast
    rw [blankWrites_succ, List.flatMap_append, reactAll_append, List.flatMap_singleton, compositeFrames, hlast]
    refine ⟨hbefore.on, hbefore.level, fun _ => rfl, fun p hp => ?_⟩
    by_cases hpn : p = n
    · subst hpn
      exact memory_read_write_same _ _ _
    · exact (memory_read_write_other _ _ _ _ hpn).trans (hbefore.blank p (by omega))

theorem bootBody_isComposite (h : HostConfig) (c : Config) : ∀ i ∈ bootBody h c, IsComposite i := by
  obtain ⟨body, hinit, hbody⟩ := initSequence_eq_setup_cons h c
  rw [initSequence_eq_setup_bootBody, List.cons.injEq] at hinit
  exact hinit.2 ▸ hbody.isComposite

/-- Settles O50: `SETUP` opens the bus (O41), and the slave then reads the frames of the two commands and of the blank
writes. -/
theorem bootBlanksTheReferenceDisplay : Obligations.BootBlanksTheReferenceDisplay := by
  intro h c hc hd
  obtain ⟨hdigits, -, hdisplay, -⟩ := (config_wf_iff c).1 hc
  obtain ⟨u, hu, hbetween, hframes, -⟩ := setupOpensTheBus c
  obtain ⟨-, hcfg : u.cfg = c⟩ := exec_extends hu
  obtain ⟨t, ht, htbetween, hslave⟩ := hbetween.runAll_composites (bootBody_isComposite h c)
  have hunknown : u.slave = .unknown := by
    rw [State.slave, hframes]
    rfl
  have hboot : t.slave = ((Slave.unknown.command c c.cmdDataAuto).command c
      (displayControlByte c (h.defaultBrightness.setWidth 8))).reactAll c
        ((blankWrites c.digitCount).flatMap (compositeFrames c)) := by
    rw [hslave, hunknown, hcfg]
    rfl
  rw [command_cmdDataAuto hd, command_displayControlByte hd hdisplay] at hboot
  obtain ⟨hon, hlevel, hmode, hblank⟩ := hboot ▸ blankedTo_blankWrites hc hd _ le_rfl
  exact ⟨t, by rw [initSequence_eq_setup_bootBody, runAll, hu]; exact ht, htbetween, hon, hlevel, hmode hdigits, hblank⟩

end Sys2Proof.Machine
end
